-- ==== Sys2Proof/Word.lean ====
section
/-! DEFINITION. The word types of the core: bytes, 16-bit words, register numbers (00_scope.md R7, R9). -/

namespace Sys2Proof

/-- An 8-bit value: a V register, a timer, a memory cell (R21, R30, R60). -/
abbrev Byte := BitVec 8

/-- A 16-bit value: PC, I, a stack entry, an instruction word (R24, R26, R27, R80). -/
abbrev Word := BitVec 16

/-- The number of a general register, "addressed 0–15" (R21). -/
abbrev Reg := Fin 16

/-- `VF`, the register that "doubles as the flag register" (R22). -/
abbrev regF : Reg := 15

end Sys2Proof
end

