-- ==== Sys2Proof/Config.lean ====
section
/-! DEFINITION. What an implementation fixes (the parameters of 00_scope.md R8, and one of the model's own) and the one free value (RND, R41). -/

namespace Sys2Proof

/-- The parameters 00_scope.md R8 leaves to the implementation. "A model takes each one as an argument with the
default shown": the record is carried by the state (log 1), nothing but the choice of a machine sets it, and a
statement about every state holds for every value of them. The defaults are `Machine.defaultParams`. -/
structure Params where
  /-- `FRAME_BUDGET`: the number of steps one frame request runs (R266, D24). -/
  frameBudget : Nat
  /-- `CONTINUE_AFTER_FAULT`: whether steps are still performed after a fatal fault (R237, R238, D3). -/
  continueAfterFault : Bool
  /-- `STRICT_59`: whether 5XYN and 9XYN with N ≠ 0 decode as UNRECOGNIZED (R91, D10). -/
  strict59 : Bool
  /-- `FLAG_WRITE_LAST`: whether a flag-producing operation writes VF after its result (R141, D7). -/
  flagWriteLast : Bool
  /-- `FX0A_STORES_KEY`: whether FX0A writes the pressed key into V[X] (R194, D8). -/
  fx0aStoresKey : Bool
  /-- `FONT_WRITE_PROTECT`: whether a store into [0, 80) faults (R69, D17). -/
  fontWriteProtect : Bool
  /-- `FONT`: the glyph bytes preloaded at [0, 80) (R47, D16). -/
  font : Vector Byte 80
  /-- Whether a step over an UNRECOGNIZED word leaves WAITING as it was, by the lists of R95 and R235, or clears it, as R44 and
  R111 say. No parameter of R8: the spec's rules part here and no file rules between them, so the model admits both machines
  (DESIGN CHOICE, log 6). -/
  decodeErrorKeepsWaiting : Bool
deriving DecidableEq, Repr

/-- `RND`, the byte `random_byte()` returns at the n-th step: "no law on its value" (R41, D28). It has no body, so
no proof can see what it is. -/
opaque Config.randomByte : Nat → Byte

end Sys2Proof
end

