-- ==== Sys2Proof/Machine/Defaults.lean ====
section
/-! DEFINITION. The defaults of the parameters (00_scope.md R8) and the default font table (10_state.md R47). -/

namespace Sys2Proof.Machine

/-- The conventional CHIP-8 hex font, 16 glyphs of 5 rows, top row first (R47). PRESUMED: the spec supplies the bytes
"from general knowledge, not in source" (log 7). -/
def defaultFontBytes : List Byte :=
    [0xF0, 0x90, 0x90, 0x90, 0xF0] ++ [0x20, 0x60, 0x20, 0x20, 0x70] ++
    [0xF0, 0x10, 0xF0, 0x80, 0xF0] ++ [0xF0, 0x10, 0xF0, 0x10, 0xF0] ++
    [0x90, 0x90, 0xF0, 0x10, 0x10] ++ [0xF0, 0x80, 0xF0, 0x10, 0xF0] ++
    [0xF0, 0x80, 0xF0, 0x90, 0xF0] ++ [0xF0, 0x10, 0x20, 0x40, 0x40] ++
    [0xF0, 0x90, 0xF0, 0x90, 0xF0] ++ [0xF0, 0x90, 0xF0, 0x10, 0xF0] ++
    [0xF0, 0x90, 0xF0, 0x90, 0x90] ++ [0xE0, 0x90, 0xE0, 0x90, 0xE0] ++
    [0xF0, 0x80, 0x80, 0x80, 0xF0] ++ [0xE0, 0x90, 0x90, 0x90, 0xE0] ++
    [0xF0, 0x80, 0xF0, 0x80, 0xF0] ++ [0xF0, 0x80, 0xF0, 0x80, 0x80]

/-- The default of `FONT` (R8, R47). -/
def defaultFont : Vector Byte 80 := ⟨defaultFontBytes.toArray, rfl⟩

/-- The defaults of R8 (log 1, log 18). The last one is the model's own: by default R44 and R111 hold as written (log 6). -/
def defaultParams : Params where
  frameBudget := 11
  continueAfterFault := false
  strict59 := true
  flagWriteLast := true
  fx0aStoresKey := true
  fontWriteProtect := false
  font := defaultFont
  decodeErrorKeepsWaiting := false

end Sys2Proof.Machine
end

