-- ==== Sys2Proof/Machine/State.lean ====
section
/-! DEFINITION. The state of the core (10_state.md R20), its power-on value (R48, 70_reset_and_hazards.md R260), and
the reasons a step could stop. -/

namespace Sys2Proof.Machine

/-- `FAULT_CODE` (R38): the first fatal fault since the last reset. The codes 6 and 7 are "reserved and never
written", so the type has no value for them. -/
inductive FaultCode where
  /-- 0 NONE: no fault since the last reset. -/
  | none
  /-- 1 STACK_OVERFLOW: CALL with SP = 16 (R231). -/
  | stackOverflow
  /-- 2 STACK_UNDERFLOW: RET with SP = 0 (R231). -/
  | stackUnderflow
  /-- 3 FETCH_OUT_OF_RANGE: a fetch with PC + 1 > 4095 (R232). -/
  | fetchOutOfRange
  /-- 4 READ_OUT_OF_RANGE: DXYN or FX65 past 4095 (R233). -/
  | readOutOfRange
  /-- 5 WRITE_OUT_OF_RANGE: FX33 or FX55 past 4095, or into a protected font (R234). -/
  | writeOutOfRange
deriving DecidableEq, Repr

/-- `STATUS.LAST_EVENT` (R53): what the last step request did. -/
inductive Event where
  /-- 0 NONE: the step completed with a recognized operation and no fault. -/
  | none
  /-- 1 DECODE_ERROR: the word decoded as UNRECOGNIZED. -/
  | decodeError
  /-- 2 FAULT: the step raised a fatal fault. -/
  | fault
  /-- 3 REFUSED: the core was halted and did not perform the step. -/
  | refused
deriving DecidableEq, Repr

/-- `MEM`: the bytes that differ from what an unlisted address reads as, addresses rising (log 10). -/
abbrev Memory := List Host.Cell

/-- `FB`: row y of the 64×32 grid is entry y, and bit x of it is the pixel of column x (R33, log 16). -/
abbrev Framebuffer := Vector (BitVec 64) 32

/-- The architectural state of R20, and two fields of the model's own, `params` and `rndIndex`. -/
structure State where
  /-- The parameters of R8, fixed for a machine (the model's own field, log 1). -/
  params : Params
  /-- `MEM[0..4095]` (R60). -/
  mem : Memory
  /-- `V[0..15]` (R21). -/
  v : Vector Byte 16
  /-- `PC` (R24). -/
  pc : Word
  /-- `I` (R26). -/
  i : Word
  /-- `STACK[0..15]` (R27). -/
  stack : Vector Word 16
  /-- `SP`, 0..16: the entries in use (R28, log 11). -/
  sp : Fin 17
  /-- `DT`, the delay timer (R30). -/
  dt : Byte
  /-- `ST`, the sound timer (R31). -/
  st : Byte
  /-- `FB` (R33). -/
  fb : Framebuffer
  /-- `KEY`: none, or the pressed key (R40, log 12). -/
  key : Option (BitVec 4)
  /-- `LAST_OP`, the last fetched word (R42). -/
  lastOp : Word
  /-- `STATUS.HALTED` (R45). -/
  halted : Bool
  /-- `STATUS.DRAW`, redraw-needed (R43). -/
  draw : Bool
  /-- `STATUS.WAITING` (R44). -/
  waiting : Bool
  /-- `STATUS.LAST_EVENT` (R53). -/
  lastEvent : Event
  /-- `FAULT_CODE` (R38). -/
  faultCode : FaultCode
  /-- `FAULT_PC` (R38). -/
  faultPc : Word
  /-- `FAULT_ADDR` (R38). -/
  faultAddr : Word
  /-- Which draw of RND the step reads (R41; the model's own field, log 2). -/
  rndIndex : Nat
deriving DecidableEq, Repr

/-- Why a step stops with a fault: never. Every fatal condition of the spec is recorded in the state and the step
completes (R236, log 3), and a halted core answers its requests (R110), so no step raises one; safe. -/
inductive Fault where
deriving DecidableEq, Repr

/-- Why a step has no meaning. -/
inductive Refusal where
  /-- An instruction the model gives no meaning yet. Raised by an arm of `exec` that is still rejected by name; every
  arm of this model has its meaning, so nothing raises it; safe. -/
  | notModelled (mnemonic : String)
deriving DecidableEq, Repr

/-- The state after power-on of the machine with parameters `p` (R48, R260). Every value is the spec's own; `rndIndex`
starts at 0 (DESIGN CHOICE, log 2). Memory lists nothing: `State.unlisted` gives the reset contents. -/
def State.powerOn (p : Params) : State where
  params := p
  mem := []
  v := Vector.replicate 16 0
  pc := 0x200
  i := 0
  stack := Vector.replicate 16 0
  sp := 0
  dt := 0
  st := 0
  fb := Vector.replicate 32 0
  key := Option.none
  lastOp := 0
  halted := false
  draw := false
  waiting := false
  lastEvent := .none
  faultCode := .none
  faultPc := 0
  faultAddr := 0
  rndIndex := 0

/-- The machine right after power-on reset, with the default parameters of R8 (R48, R260). -/
def State.reset : State := State.powerOn defaultParams

end Sys2Proof.Machine
end

