-- ==== Sys2Proof/Machine/Memory.lean ====
section
/-! DEFINITION. Memory as a canonical list of cells (20_memory.md R60), its bounds checks (R64, R65, R69), and the
accesses of a state. `d` is what an unlisted address reads as. -/

namespace Sys2Proof.Machine

/-- `MEM_SIZE` (R7). -/
def memSize : Nat := 4096

/-- `FONT_SIZE` (R7): the font lies at [0, 80). -/
def fontSize : Nat := 80

/-- `LOAD_BASE` (R7): the program region starts here. -/
def loadBase : Nat := 0x200

/-- The byte at an address. -/
def Memory.read (d : Nat → Byte) : Memory → Nat → Byte
  | [], a => d a
  | c :: m, a => if c.1 = a then c.2 else Memory.read d m a

/-- Put a cell before `m`, unless it says what an unlisted address says. -/
def Memory.cons (d : Nat → Byte) (a : Nat) (b : Byte) (m : Memory) : Memory :=
  if b = d a then m else (a, b) :: m

/-- Write one byte, keeping the canonical form. -/
def Memory.write (d : Nat → Byte) : Memory → Nat → Byte → Memory
  | [], a, b => Memory.cons d a b []
  | c :: m, a, b =>
    if a < c.1 then Memory.cons d a b (c :: m)
    else if a = c.1 then Memory.cons d a b m
    else c :: Memory.write d m a b

/-- Write bytes at `a`, `a + 1`, ... -/
def Memory.writeList (d : Nat → Byte) : Memory → Nat → List Byte → Memory
  | m, _, [] => m
  | m, a, b :: bs => Memory.writeList d (Memory.write d m a b) (a + 1) bs

/-- The canonical form: addresses strictly rising and inside the address space, and no cell equal to what an unlisted
address reads as. -/
abbrev Memory.wf (d : Nat → Byte) (m : Memory) : Prop :=
  m.Pairwise (fun c c' => c.1 < c'.1) ∧ ∀ c ∈ m, c.1 < memSize ∧ c.2 ≠ d c.1

/-- What an unlisted address reads as: the power-on contents, `FONT` below 80 and 0 above (R48, R68, log 10). -/
def unlistedByte (font : Vector Byte 80) (a : Nat) : Byte :=
  if h : a < 80 then font[a] else 0

/-- What an unlisted address of the state's memory reads as. -/
def State.unlisted (s : State) : Nat → Byte := unlistedByte s.params.font

/-- `MEM[a]`. -/
def State.readByte (s : State) (a : Nat) : Byte := Memory.read s.unlisted s.mem a

/-- `MemRead(a, n)`: the bytes at `a .. a+n-1` (R11). -/
def State.readBytes (s : State) (a n : Nat) : List Byte :=
  (List.range n).map fun k => s.readByte (a + k)

/-- The memory after `MemWrite` of `bs` at `a` (R11). -/
def State.memWritten (s : State) (a : Nat) (bs : List Byte) : Memory :=
  Memory.writeList s.unlisted s.mem a bs

/-- `max(a, 4096)`: the lowest out-of-range address of an access at base `a` that fails its check (R64). -/
def outOfRangeAddr (a : Nat) : Word := BitVec.ofNat 16 (max a memSize)

/-- The bounds check of R64: the address to report when an access of `n` bytes at base `a` is out of range. An access of
no bytes is never checked. -/
def boundsFault (a n : Nat) : Option Word :=
  if n = 0 ∨ a + n - 1 ≤ 4095 then none else some (outOfRangeAddr a)

/-- The check of a write of `n` bytes at base `a`: the bounds first (R64, R240), then the font protection (R69, R234),
whose lowest protected byte in the range is `a` itself. -/
def writeFault (protect : Bool) (a n : Nat) : Option Word :=
  match boundsFault a n with
  | some addr => some addr
  | none => if protect ∧ n ≠ 0 ∧ a < fontSize then some (BitVec.ofNat 16 a) else none

/-- The read check of the state at base I. -/
def State.readCheck (s : State) (n : Nat) : Option Word := boundsFault s.i.toNat n

/-- The write check of the state at base I. -/
def State.writeCheck (s : State) (n : Nat) : Option Word :=
  writeFault s.params.fontWriteProtect s.i.toNat n

end Sys2Proof.Machine
end

