-- ==== Sys2Proof/Machine/Sprite.lean ====
section
/-! DEFINITION. framebuffer_xor_write (44_display.md R210) and sprite_collision_engine (R212 to R219). -/

namespace Sys2Proof.Machine

/-! ### framebuffer_xor_write -/

/-- `FB[x][y]`. -/
def Framebuffer.pixel (fb : Framebuffer) (x : Fin 64) (y : Fin 32) : Bool := fb[y].getLsbD x

/-- `clear()`: every pixel 0 (R210). -/
def Framebuffer.clear : Framebuffer := Vector.replicate 32 0

/-- `FB` after `xor(x, y)`: the one pixel is flipped (R210). -/
def Framebuffer.flip (fb : Framebuffer) (x : Fin 64) (y : Fin 32) : Framebuffer :=
  fb.set y (fb[y] ^^^ BitVec.twoPow 64 x)

/-- `xor(x, y)`: the old pixel, and the framebuffer with that pixel flipped (R210). -/
def Framebuffer.xor (fb : Framebuffer) (x : Fin 64) (y : Fin 32) : Bool × Framebuffer :=
  (fb.pixel x y, fb.flip x y)

/-- The host read port: the pixel at linear index `y*64 + x` (R34). -/
def Framebuffer.readPort (fb : Framebuffer) (k : Fin 2048) : Bool :=
  fb.pixel ⟨k % 64, by omega⟩ ⟨k / 64, by omega⟩

/-! ### sprite_collision_engine -/

/-- `x0 := V[X] mod 64` (R213). -/
def spriteX (b : Byte) : Nat := b.toNat % 64

/-- `y0 := V[Y] mod 32` (R213). -/
def spriteY (b : Byte) : Nat := b.toNat % 32

/-- Bit `b` of a sprite row, most significant first: `(row >> (7 - b)) & 1` (R213). -/
def spriteBit (row : Byte) (b : Nat) : Bool := row.getLsbD (7 - b)

/-- The pixel that bit `b` of a row at (`x0`, `y`) falls on: only a 1 bit inside the grid has one, since a sprite is
clipped and not wrapped (R214). -/
def bitTarget (x0 y : Nat) (row : Byte) (b : Nat) : Option (Fin 64 × Fin 32) :=
  if h : spriteBit row b = true ∧ x0 + b < 64 ∧ y < 32 then some (⟨x0 + b, h.2.1⟩, ⟨y, h.2.2⟩) else none

/-- The pixels of one sprite row, in the order the bits are visited. -/
def rowTargets (x0 y : Nat) (row : Byte) : List (Fin 64 × Fin 32) :=
  (List.range 8).filterMap (bitTarget x0 y row)

/-- The pixels of the rows of a sprite whose first row lies at `y`. -/
def spriteTargets (x0 : Nat) : Nat → List Byte → List (Fin 64 × Fin 32)
  | _, [] => []
  | y, row :: rows => rowTargets x0 y row ++ spriteTargets x0 (y + 1) rows

/-- Drive `xor` for each pixel of a list, gathering the collision bit: 1 iff some `xor` returned 1 (R212). -/
def xorAll : Bool → Framebuffer → List (Fin 64 × Fin 32) → Bool × Framebuffer
  | hit, fb, [] => (hit, fb)
  | hit, fb, p :: ps => xorAll (hit || (fb.xor p.1 p.2).1) (fb.xor p.1 p.2).2 ps

/-- Draw the rows of a sprite at (`x0`, `y0`): the collision bit, starting from `VF <- 0`, and the framebuffer
(R212, R213). -/
def drawSprite (fb : Framebuffer) (x0 y0 : Nat) (rows : List Byte) : Bool × Framebuffer :=
  xorAll false fb (spriteTargets x0 y0 rows)

end Sys2Proof.Machine
end

