-- ==== Sys2Proof/Machine/Ops.lean ====
section
/-! DEFINITION. The named operations over the state: registers, the stack, the program_counter_mux, the end of a step,
and taking a fault (the shared operation of 60_exceptions.md R236). -/

namespace Sys2Proof.Machine

/-! ### Widening (R9, R83): every value is unsigned -/

/-- A 12-bit immediate as an address: `zext_16(NNN)` (R83). -/
def zextAddr (nnn : BitVec 12) : Word := nnn.setWidth 16

/-- `zext_16(V[X])`. -/
def zextByte (b : Byte) : Word := b.setWidth 16

/-! ### Registers -/

/-- `V[k]` (R10). -/
def State.reg (s : State) (k : Reg) : Byte := s.v[k]

/-- `V[k] <- b` (R10). -/
def State.setReg (s : State) (k : Reg) (b : Byte) : State := { s with v := s.v.set k b }

/-- `PC <- a`. -/
def State.setPc (s : State) (a : Word) : State := { s with pc := a }

/-- `I <- a`. -/
def State.setI (s : State) (a : Word) : State := { s with i := a }

/-- `DT <- b`. -/
def State.setDt (s : State) (b : Byte) : State := { s with dt := b }

/-- `ST <- b`. -/
def State.setSt (s : State) (b : Byte) : State := { s with st := b }

/-- The memory replaced. -/
def State.setMem (s : State) (m : Memory) : State := { s with mem := m }

/-- `MemWrite(a, n, bs)` after its check (R11). -/
def State.writeBytes (s : State) (a : Nat) (bs : List Byte) : State := s.setMem (s.memWritten a bs)

/-- `V[k] <- b` for the bytes of a list, from register `k` on: the loop of FX65 (R177). -/
def State.loadRegs (s : State) : Nat → List Byte → State
  | _, [] => s
  | k, b :: bs => State.loadRegs (s.setReg (Fin.ofNat 16 k) b) (k + 1) bs

/-- The bytes of `V[0]` to `V[x]` (R176). -/
def State.regBytes (s : State) (x : Reg) : List Byte :=
  (List.range (x.val + 1)).map fun k => s.reg (Fin.ofNat 16 k)

/-! ### Display -/

/-- The framebuffer replaced, and `STATUS.DRAW <- 1` (R43, D14). -/
def State.redraw (s : State) (fb : Framebuffer) : State := { s with fb := fb, draw := true }

/-! ### The stack (R114) -/

/-- The stack and its pointer replaced. -/
def State.setStack (s : State) (stack : Vector Word 16) (sp : Fin 17) : State :=
  { s with stack := stack, sp := sp }

/-- `push(a)`: none where it raises StackOverflow (SP = 16); otherwise the entry at SP is written and SP counts one
more (R28, R114). -/
def State.push? (s : State) (a : Word) : Option State :=
  if h : s.sp.val < 16 then some (s.setStack (s.stack.set s.sp.val a h) ⟨s.sp.val + 1, by omega⟩) else none

/-- `pop()`: none where it raises StackUnderflow (SP = 0); otherwise SP counts one less and the entry there is read;
it stays in place (R28, R114). -/
def State.pop? (s : State) : Option (Word × State) :=
  if h : s.sp.val = 0 then none
  else some (s.stack[s.sp.val - 1]'(by omega), s.setStack s.stack ⟨s.sp.val - 1, by omega⟩)

/-! ### The program_counter_mux (R113) -/

/-- The sources of the next PC. CALL is `jump` with a push beside it. -/
inductive PcSelect where
  /-- SEQ: the advanced PC, pc0 + 2. -/
  | seq
  /-- SKIP: pc0 + 4. -/
  | skip
  /-- JUMP and CALL: NNN. -/
  | jump (nnn : BitVec 12)
  /-- RET: the popped entry. -/
  | ret (a : Word)
  /-- JUMP_V0: V[0] + NNN. -/
  | jumpV0 (v0 : Byte) (nnn : BitVec 12)
  /-- REWIND: pc0. -/
  | rewind
deriving DecidableEq, Repr

/-- The next PC, from the already-advanced PC (R113). Additions are mod 2^16 (R24). -/
def pcMux (pc : Word) : PcSelect → Word
  | .seq => pc
  | .skip => pc + 2
  | .jump nnn => zextAddr nnn
  | .ret a => a
  | .jumpV0 v0 nnn => zextByte v0 + zextAddr nnn
  | .rewind => pc - 2

/-- PC takes the value the mux selects. -/
def State.selectPc (s : State) (sel : PcSelect) : State := s.setPc (pcMux s.pc sel)

/-- SKIP if the condition holds, else SEQ (R113). -/
def State.skipIf (s : State) (c : Bool) : State := s.selectPc (if c then .skip else .seq)

/-! ### The end of a step -/

/-- The last two lines of R111 for a recognized operation that does not wait: `LAST_EVENT <- NONE`, `WAITING <- 0`. -/
def State.complete (s : State) : State := { s with lastEvent := .none, waiting := false }

/-- The last two lines of R111 for FX0A with no key: `LAST_EVENT <- NONE`, `WAITING <- 1` (R44). -/
def State.completeWaiting (s : State) : State := { s with lastEvent := .none, waiting := true }

/-- The end of a step over an UNRECOGNIZED word: `LAST_EVENT <- DECODE_ERROR`, and WAITING is cleared (R44 and the last line of
R111), or left as it was (R95, R235) where the parameter says so (log 6). -/
def State.completeUnrecognized (s : State) : State :=
  { s with lastEvent := .decodeError, waiting := s.params.decodeErrorKeepsWaiting && s.waiting }

/-- A step request while HALTED = 1: "the only state that changes is `STATUS.LAST_EVENT <- REFUSED`" (R110). -/
def State.refuse (s : State) : State := { s with lastEvent := .refused }

/-! ### Taking a fault (R236) -/

/-- The entry of a fault `code` at address `addr`, raised in the step whose instruction is at `pc0`: the fault registers
keep the first fault, and the core halts unless `CONTINUE_AFTER_FAULT` (R38, R45, R236). -/
def State.takeFault (s : State) (code : FaultCode) (pc0 addr : Word) : State :=
  { s with
    faultCode := if s.faultCode = .none then code else s.faultCode
    faultPc := if s.faultCode = .none then pc0 else s.faultPc
    faultAddr := if s.faultCode = .none then addr else s.faultAddr
    lastEvent := .fault
    waiting := false
    halted := s.halted || !s.params.continueAfterFault }

/-- A fault raised in the execute phase, where PC already holds pc0 + 2: `FAULT_PC` is pc0 (R24, R236, log 5). The fault's
only effect is its entry; PC and LAST_OP stay as the advance left them. -/
def State.execFault (s : State) (code : FaultCode) (addr : Word) : State :=
  s.takeFault code (s.pc - 2) addr

end Sys2Proof.Machine
end

