-- ==== Sys2Proof/Machine/Operands.lean ====
section
/-! DEFINITION. The operand forms: what an instruction computes from its fields and the state before it writes
(30_encoding.md R83, R97). -/

namespace Sys2Proof.Machine

/-- The glyph address of FX29: `zext_16(V[X]) * 5`, at most 1275 (R173). -/
def glyphAddr (b : Byte) : Word := zextByte b * 5

/-- Hundreds, tens and units of a byte, in the order FX33 stores them (R175). -/
def bcdDigits (b : Byte) : List Byte :=
  [BitVec.ofNat 8 (b.toNat / 100), BitVec.ofNat 8 (b.toNat / 10 % 10), BitVec.ofNat 8 (b.toNat % 10)]

/-- The key as a byte: `zext_8(KEY_VALUE)` (R191). -/
def keyByte (k : BitVec 4) : Byte := k.setWidth 8

/-- `KEY_VALID == 1 and zext_8(KEY_VALUE) == V[X]` (R191, R192). -/
def State.keyIs (s : State) (b : Byte) : Bool :=
  match s.key with
  | none => false
  | some k => keyByte k == b

/-- This step's `RND` (R41): the free value of the draw the state names (log 2). -/
def State.rndByte (s : State) : Byte := Config.randomByte s.rndIndex

end Sys2Proof.Machine
end

