-- ==== Sys2Proof/Machine/Flags.lean ====
section
/-! DEFINITION. The results and flags of the flag-producing operations (41_alu.md R140, R141, R149 to R153; 10_state.md
R35), and the order of the two writes. -/

namespace Sys2Proof.Machine

/-- A flag as the byte VF holds: 0 or 1 (R141). -/
def flagByte (f : Bool) : Byte := if f then 1 else 0

/-- 8XY4: `(a + b) mod 256` (R149). -/
def addResult (a b : Byte) : Byte := BitVec.ofNat 8 (a.toNat + b.toNat)

/-- 8XY4: 1 iff a + b > 255 (R149). -/
def addFlag (a b : Byte) : Bool := decide (a.toNat + b.toNat > 255)

/-- 8XY5 `(a - b) mod 256` (R150), and 8XY7 with the operands exchanged (R152). -/
def subResult (a b : Byte) : Byte := BitVec.ofInt 8 ((a.toNat : Int) - (b.toNat : Int))

/-- 8XY5: 0 iff b > a, else 1 (R150). -/
def subFlag (a b : Byte) : Bool := !decide (b.toNat > a.toNat)

/-- 8XY7: 1 iff b > a, else 0 (R152). -/
def subnFlag (a b : Byte) : Bool := decide (b.toNat > a.toNat)

/-- 8XY6: `a >> 1` (R151). -/
def shrResult (a : Byte) : Byte := a >>> 1

/-- 8XY6: bit 0 of a (R151). -/
def shrFlag (a : Byte) : Bool := a.getLsbD 0

/-- 8XYE: `(a << 1) mod 256` (R153). -/
def shlResult (a : Byte) : Byte := a <<< 1

/-- 8XYE: bit 7 of a (R153). -/
def shlFlag (a : Byte) : Bool := a.getLsbD 7

/-- The two writes of a flag-producing operation, in the order `FLAG_WRITE_LAST` gives: they meet when X = 15
(R23, R141). -/
def State.writeFlagged (s : State) (x : Reg) (r : Byte) (f : Bool) : State :=
  if s.params.flagWriteLast then (s.setReg x r).setReg regF (flagByte f)
  else (s.setReg regF (flagByte f)).setReg x r

end Sys2Proof.Machine
end

