-- ==== Sys2Proof/Syntax.lean ====
section
/-! DEFINITION. The instructions: one constructor for each row of spec/opcode_table.json, with the fields its
pattern has (30_encoding.md R81, R86, R97). -/

namespace Sys2Proof

/-- The 34 instructions of the opcode table (R3, R86). `x` and `y` are register numbers, `nn` and `nnn` immediates,
`n` the sprite height of DXYN. 5XYN and 9XYN carry their low nibble `n`, which only `STRICT_59` = false lets differ
from 0 (R91, R98). The shifts carry the encoded Y they do not use (R97). -/
inductive Instr where
  /-- 00E0 -/
  | cls
  /-- 00EE -/
  | ret
  /-- 1NNN -/
  | jp (nnn : BitVec 12)
  /-- 2NNN -/
  | call (nnn : BitVec 12)
  /-- 3XNN -/
  | seVxNn (x : Reg) (nn : Byte)
  /-- 4XNN -/
  | sneVxNn (x : Reg) (nn : Byte)
  /-- 5XY0 (5XYN with `STRICT_59` = false) -/
  | seVxVy (x y : Reg) (n : BitVec 4)
  /-- 6XNN -/
  | ldVxNn (x : Reg) (nn : Byte)
  /-- 7XNN -/
  | addVxNn (x : Reg) (nn : Byte)
  /-- 8XY0 -/
  | ldVxVy (x y : Reg)
  /-- 8XY1 -/
  | orVxVy (x y : Reg)
  /-- 8XY2 -/
  | andVxVy (x y : Reg)
  /-- 8XY3 -/
  | xorVxVy (x y : Reg)
  /-- 8XY4 -/
  | addVxVy (x y : Reg)
  /-- 8XY5 -/
  | subVxVy (x y : Reg)
  /-- 8XY6 -/
  | shrVxVy (x y : Reg)
  /-- 8XY7 -/
  | subnVxVy (x y : Reg)
  /-- 8XYE -/
  | shlVxVy (x y : Reg)
  /-- 9XY0 (9XYN with `STRICT_59` = false) -/
  | sneVxVy (x y : Reg) (n : BitVec 4)
  /-- ANNN -/
  | ldINnn (nnn : BitVec 12)
  /-- BNNN -/
  | jpV0 (nnn : BitVec 12)
  /-- CXNN -/
  | rnd (x : Reg) (nn : Byte)
  /-- DXYN -/
  | drw (x y : Reg) (n : BitVec 4)
  /-- EX9E -/
  | skp (x : Reg)
  /-- EXA1 -/
  | sknp (x : Reg)
  /-- FX07 -/
  | ldVxDt (x : Reg)
  /-- FX0A -/
  | ldVxK (x : Reg)
  /-- FX15 -/
  | ldDtVx (x : Reg)
  /-- FX18 -/
  | ldStVx (x : Reg)
  /-- FX1E -/
  | addIVx (x : Reg)
  /-- FX29 -/
  | ldFVx (x : Reg)
  /-- FX33 -/
  | ldBVx (x : Reg)
  /-- FX55 -/
  | ldMemVx (x : Reg)
  /-- FX65 -/
  | ldVxMem (x : Reg)
deriving DecidableEq, Repr

end Sys2Proof
end

