-- ==== Sys2Proof/Machine/Alu.lean ====
section
/-! DEFINITION. chip8_alu_executor: register and arithmetic operations (41_alu.md R142 to R154). None can fault. -/

namespace Sys2Proof.Machine

/-- 6XNN LD: `V[X] <- NN` (R142). -/
def execLdVxNn (x : Reg) (nn : Byte) (s : State) : Host.Outcome State Fault Refusal :=
  .next (s.setReg x nn).complete

/-- 7XNN ADD: `V[X] <- (V[X] + NN) mod 256`, no flag (R143). -/
def execAddVxNn (x : Reg) (nn : Byte) (s : State) : Host.Outcome State Fault Refusal :=
  .next (s.setReg x (addResult (s.reg x) nn)).complete

/-- 8XY0 LD: `V[X] <- V[Y]` (R144). -/
def execLdVxVy (x y : Reg) (s : State) : Host.Outcome State Fault Refusal :=
  .next (s.setReg x (s.reg y)).complete

/-- 8XY1 OR (R145). -/
def execOrVxVy (x y : Reg) (s : State) : Host.Outcome State Fault Refusal :=
  .next (s.setReg x (s.reg x ||| s.reg y)).complete

/-- 8XY2 AND (R146). -/
def execAndVxVy (x y : Reg) (s : State) : Host.Outcome State Fault Refusal :=
  .next (s.setReg x (s.reg x &&& s.reg y)).complete

/-- 8XY3 XOR (R147). -/
def execXorVxVy (x y : Reg) (s : State) : Host.Outcome State Fault Refusal :=
  .next (s.setReg x (s.reg x ^^^ s.reg y)).complete

/-- 8XY4 ADD: the sum mod 256, VF its carry (R149). -/
def execAddVxVy (x y : Reg) (s : State) : Host.Outcome State Fault Refusal :=
  .next (s.writeFlagged x (addResult (s.reg x) (s.reg y)) (addFlag (s.reg x) (s.reg y))).complete

/-- 8XY5 SUB: the difference mod 256, VF the absence of a borrow (R150). -/
def execSubVxVy (x y : Reg) (s : State) : Host.Outcome State Fault Refusal :=
  .next (s.writeFlagged x (subResult (s.reg x) (s.reg y)) (subFlag (s.reg x) (s.reg y))).complete

/-- 8XY6 SHR: one bit right, VF the bit shifted out; Y is ignored (R97, R151). -/
def execShrVxVy (x _y : Reg) (s : State) : Host.Outcome State Fault Refusal :=
  .next (s.writeFlagged x (shrResult (s.reg x)) (shrFlag (s.reg x))).complete

/-- 8XY7 SUBN: `(V[Y] - V[X]) mod 256`, VF = 1 iff V[Y] > V[X] (R152). -/
def execSubnVxVy (x y : Reg) (s : State) : Host.Outcome State Fault Refusal :=
  .next (s.writeFlagged x (subResult (s.reg y) (s.reg x)) (subnFlag (s.reg x) (s.reg y))).complete

/-- 8XYE SHL: one bit left, VF the bit shifted out; Y is ignored (R97, R153). -/
def execShlVxVy (x _y : Reg) (s : State) : Host.Outcome State Fault Refusal :=
  .next (s.writeFlagged x (shlResult (s.reg x)) (shlFlag (s.reg x))).complete

/-- CXNN RND: `V[X] <- RND & NN` (R154). -/
def execRnd (x : Reg) (nn : Byte) (s : State) : Host.Outcome State Fault Refusal :=
  .next (s.setReg x (s.rndByte &&& nn)).complete

end Sys2Proof.Machine
end

