-- ==== Sys2Proof/Machine/ControlFlow.lean ====
section
/-! DEFINITION. The control-flow instructions (40_step_and_control_flow.md R116 to R123). Each meaning is the `execute`
body of R111, with the step's closing status writes; PC in it is the advanced pc0 + 2. -/

namespace Sys2Proof.Machine

/-- 00EE RET: `PC <- pop()`; StackUnderflow if SP = 0 (R116, R231). -/
def execRet (s : State) : Host.Outcome State Fault Refusal :=
  match s.pop? with
  | none => .next (s.execFault .stackUnderflow 0)
  | some (a, t) => .next (t.selectPc (.ret a)).complete

/-- 1NNN JP: `PC <- zext_16(NNN)` (R117). -/
def execJp (nnn : BitVec 12) (s : State) : Host.Outcome State Fault Refusal :=
  .next (s.selectPc (.jump nnn)).complete

/-- 2NNN CALL: `push(PC); PC <- zext_16(NNN)`; StackOverflow if SP = 16 (R118, R231). -/
def execCall (nnn : BitVec 12) (s : State) : Host.Outcome State Fault Refusal :=
  match s.push? s.pc with
  | none => .next (s.execFault .stackOverflow 0)
  | some t => .next (t.selectPc (.jump nnn)).complete

/-- 3XNN SE: skip if `V[X] == NN` (R119). -/
def execSeVxNn (x : Reg) (nn : Byte) (s : State) : Host.Outcome State Fault Refusal :=
  .next (s.skipIf (s.reg x == nn)).complete

/-- 4XNN SNE: skip if `V[X] != NN` (R120). -/
def execSneVxNn (x : Reg) (nn : Byte) (s : State) : Host.Outcome State Fault Refusal :=
  .next (s.skipIf (s.reg x != nn)).complete

/-- 5XY0 SE: skip if `V[X] == V[Y]`; the low nibble is ignored (R91, R121). -/
def execSeVxVy (x y : Reg) (_n : BitVec 4) (s : State) : Host.Outcome State Fault Refusal :=
  .next (s.skipIf (s.reg x == s.reg y)).complete

/-- 9XY0 SNE: skip if `V[X] != V[Y]`; the low nibble is ignored (R91, R122). -/
def execSneVxVy (x y : Reg) (_n : BitVec 4) (s : State) : Host.Outcome State Fault Refusal :=
  .next (s.skipIf (s.reg x != s.reg y)).complete

/-- BNNN JP V0: `PC <- zext_16(V[0]) + zext_16(NNN)` (R123). -/
def execJpV0 (nnn : BitVec 12) (s : State) : Host.Outcome State Fault Refusal :=
  .next (s.selectPc (.jumpV0 (s.reg 0) nnn)).complete

end Sys2Proof.Machine
end

