-- ==== Sys2Proof/Machine/Display.lean ====
section
/-! DEFINITION. The display instructions (44_display.md R211, R213 to R219). -/

namespace Sys2Proof.Machine

/-- 00E0 CLS: `clear(); STATUS.DRAW <- 1` (R211). -/
def execCls (s : State) : Host.Outcome State Fault Refusal :=
  .next (s.redraw Framebuffer.clear).complete

/-- The sprite of DXYN drawn from the rows at I: the collision bit and the framebuffer. The coordinates are read from
the state before VF is cleared (R213, R218). -/
def State.drawn (s : State) (x y : Reg) (n : BitVec 4) : Bool × Framebuffer :=
  drawSprite s.fb (spriteX (s.reg x)) (spriteY (s.reg y)) (s.readBytes s.i.toNat n.toNat)

/-- DXYN DRW: every row is range-checked first (R213, R219), the sprite is XORed into FB, VF is the collision bit and
DRAW is set; with N = 0 nothing is read or drawn, VF is 0 and DRAW is set (R217). -/
def execDrw (x y : Reg) (n : BitVec 4) (s : State) : Host.Outcome State Fault Refusal :=
  match s.readCheck n.toNat with
  | some addr => .next (s.execFault .readOutOfRange addr)
  | none => .next ((s.redraw (s.drawn x y n).2).setReg regF (flagByte (s.drawn x y n).1)).complete

end Sys2Proof.Machine
end

