-- ==== Sys2Proof/Machine/IndexMemory.lean ====
section
/-! DEFINITION. Index register and memory operations (42_index_and_memory.md R170 to R177). The memory operations check
their whole range before a byte moves (R174), and leave I as it was. -/

namespace Sys2Proof.Machine

/-- ANNN LD I: `I <- zext_16(NNN)` (R171). -/
def execLdINnn (nnn : BitVec 12) (s : State) : Host.Outcome State Fault Refusal :=
  .next (s.setI (zextAddr nnn)).complete

/-- FX1E ADD I: `I <- (I + zext_16(V[X])) mod 2^16`, no flag (R172). -/
def execAddIVx (x : Reg) (s : State) : Host.Outcome State Fault Refusal :=
  .next (s.setI (s.i + zextByte (s.reg x))).complete

/-- FX29 LD F: `I <- zext_16(V[X]) * 5` (R173). -/
def execLdFVx (x : Reg) (s : State) : Host.Outcome State Fault Refusal :=
  .next (s.setI (glyphAddr (s.reg x))).complete

/-- FX33 LD B: the decimal digits of V[X] at I, I+1, I+2 (R175). -/
def execLdBVx (x : Reg) (s : State) : Host.Outcome State Fault Refusal :=
  match s.writeCheck 3 with
  | some addr => .next (s.execFault .writeOutOfRange addr)
  | none => .next (s.writeBytes s.i.toNat (bcdDigits (s.reg x))).complete

/-- FX55 LD [I]: `MEM[I+k] <- V[k]` for k = 0..X (R176). -/
def execLdMemVx (x : Reg) (s : State) : Host.Outcome State Fault Refusal :=
  match s.writeCheck (x.val + 1) with
  | some addr => .next (s.execFault .writeOutOfRange addr)
  | none => .next (s.writeBytes s.i.toNat (s.regBytes x)).complete

/-- FX65 LD Vx, [I]: `V[k] <- MEM[I+k]` for k = 0..X (R177). -/
def execLdVxMem (x : Reg) (s : State) : Host.Outcome State Fault Refusal :=
  match s.readCheck (x.val + 1) with
  | some addr => .next (s.execFault .readOutOfRange addr)
  | none => .next (s.loadRegs 0 (s.readBytes s.i.toNat (x.val + 1))).complete

end Sys2Proof.Machine
end

