-- ==== Sys2Proof/Machine/TimersInput.lean ====
section
/-! DEFINITION. Timers and key input (43_timers_and_input.md R190 to R197). None can fault. -/

namespace Sys2Proof.Machine

/-- EX9E SKP: skip if the key is V[X] (R191). -/
def execSkp (x : Reg) (s : State) : Host.Outcome State Fault Refusal :=
  .next (s.skipIf (s.keyIs (s.reg x))).complete

/-- EXA1 SKNP: skip if the key is not V[X] (R192). -/
def execSknp (x : Reg) (s : State) : Host.Outcome State Fault Refusal :=
  .next (s.skipIf (!s.keyIs (s.reg x))).complete

/-- FX07: `V[X] <- DT` (R193, log 8). -/
def execLdVxDt (x : Reg) (s : State) : Host.Outcome State Fault Refusal :=
  .next (s.setReg x s.dt).complete

/-- The key stored into V[X] where `FX0A_STORES_KEY` says so (R194, log 9). -/
def State.storeKey (s : State) (x : Reg) (k : BitVec 4) : State :=
  if s.params.fx0aStoresKey then s.setReg x (keyByte k) else s

/-- FX0A: with no key PC rewinds to the instruction itself and the step waits; with a key the key is stored
(R194, R195). -/
def execLdVxK (x : Reg) (s : State) : Host.Outcome State Fault Refusal :=
  match s.key with
  | none => .next (s.selectPc .rewind).completeWaiting
  | some k => .next (s.storeKey x k).complete

/-- FX15: `DT <- V[X]` (R196, log 8). -/
def execLdDtVx (x : Reg) (s : State) : Host.Outcome State Fault Refusal :=
  .next (s.setDt (s.reg x)).complete

/-- FX18: `ST <- V[X]` (R197, log 8). -/
def execLdStVx (x : Reg) (s : State) : Host.Outcome State Fault Refusal :=
  .next (s.setSt (s.reg x)).complete

end Sys2Proof.Machine
end

