-- ==== Sys2Proof/WellFormed.lean ====
section
/-! DEFINITION. Which instructions a word of the machine can hold. The fields' types already bound every register
number and immediate (30_encoding.md R83); the one check left is the low nibble of 5XYN and 9XYN (R91). -/

namespace Sys2Proof

/-- The low nibble of 5XYN and 9XYN: 0 when `STRICT_59` is true, any value when it is false (R91). -/
def nibbleOk (strict59 : Bool) (n : BitVec 4) : Bool := n == 0 || !strict59

/-- `i` is an instruction of the machine with the parameter `STRICT_59` = `strict59`. -/
def Instr.wellFormed (strict59 : Bool) : Instr → Bool
  | .cls => true
  | .ret => true
  | .jp _ => true
  | .call _ => true
  | .seVxNn _ _ => true
  | .sneVxNn _ _ => true
  | .seVxVy _ _ n => nibbleOk strict59 n
  | .ldVxNn _ _ => true
  | .addVxNn _ _ => true
  | .ldVxVy _ _ => true
  | .orVxVy _ _ => true
  | .andVxVy _ _ => true
  | .xorVxVy _ _ => true
  | .addVxVy _ _ => true
  | .subVxVy _ _ => true
  | .shrVxVy _ _ => true
  | .subnVxVy _ _ => true
  | .shlVxVy _ _ => true
  | .sneVxVy _ _ n => nibbleOk strict59 n
  | .ldINnn _ => true
  | .jpV0 _ => true
  | .rnd _ _ => true
  | .drw _ _ _ => true
  | .skp _ => true
  | .sknp _ => true
  | .ldVxDt _ => true
  | .ldVxK _ => true
  | .ldDtVx _ => true
  | .ldStVx _ => true
  | .addIVx _ => true
  | .ldFVx _ => true
  | .ldBVx _ => true
  | .ldMemVx _ => true
  | .ldVxMem _ => true

end Sys2Proof
end

