-- ==== Sys2Proof/Decode.lean ====
section
/-! DEFINITION. chip8_decoder (30_encoding.md): the fields of a word (R81), the operation record (R84, R86), the
decode function (R87), the decoder over bytes (R62), and the encoder (R98). -/

namespace Sys2Proof

/-! ### Fields of a word (R81) -/

/-- `F`, w[15:12]. -/
def familyField (w : Word) : BitVec 4 := w.extractLsb' 12 4

/-- `X`, w[11:8], as bits. -/
def xField (w : Word) : BitVec 4 := w.extractLsb' 8 4

/-- `Y`, w[7:4], as bits. -/
def yField (w : Word) : BitVec 4 := w.extractLsb' 4 4

/-- `N`, w[3:0]. -/
def nField (w : Word) : BitVec 4 := w.extractLsb' 0 4

/-- `NN`, w[7:0]. -/
def nnField (w : Word) : BitVec 8 := w.extractLsb' 0 8

/-- `NNN`, w[11:0]. -/
def nnnField (w : Word) : BitVec 12 := w.extractLsb' 0 12

/-! ### The operation record -/

/-- `OpKind`: UNRECOGNIZED and the 34 instructions, in the order of R86. -/
inductive OpKind where
  | unrecognized
  | cls | ret | jp | call
  | seVxNn | sneVxNn | seVxVy
  | ldVxNn | addVxNn
  | ldVxVy | or | and | xor | addVxVy | sub | shr | subn | shl
  | sneVxVy
  | ldI | jpV0 | rnd | drw
  | skp | sknp
  | ldVxDt | ldVxK | ldDtVx | ldStVx
  | addIVx | ldFVx | ldBVx | ldMemVx | ldVxMem
deriving DecidableEq, Repr

/-- The numeric code of a kind, 6 bits in hardware: 0 for UNRECOGNIZED, then the table's order (R86). -/
def OpKind.code : OpKind → BitVec 6
  | .unrecognized => 0
  | .cls => 1 | .ret => 2 | .jp => 3 | .call => 4
  | .seVxNn => 5 | .sneVxNn => 6 | .seVxVy => 7
  | .ldVxNn => 8 | .addVxNn => 9
  | .ldVxVy => 10 | .or => 11 | .and => 12 | .xor => 13
  | .addVxVy => 14 | .sub => 15 | .shr => 16 | .subn => 17 | .shl => 18
  | .sneVxVy => 19
  | .ldI => 20 | .jpV0 => 21 | .rnd => 22 | .drw => 23
  | .skp => 24 | .sknp => 25
  | .ldVxDt => 26 | .ldVxK => 27 | .ldDtVx => 28 | .ldStVx => 29
  | .addIVx => 30 | .ldFVx => 31 | .ldBVx => 32 | .ldMemVx => 33 | .ldVxMem => 34

/-- The decoder's output: the kind, and every field whatever the kind (R84, R85). -/
structure Op where
  kind : OpKind
  x : BitVec 4
  y : BitVec 4
  n : BitVec 4
  nn : BitVec 8
  nnn : BitVec 12
  word : Word
deriving DecidableEq, Repr

/-- Family 0, decoded on the whole word (R88). -/
def kind0 (w : Word) : OpKind :=
  if w = 0x00E0 then .cls else if w = 0x00EE then .ret else .unrecognized

/-- Families 5 and 9: the low nibble must be 0 when `STRICT_59` is true (R91). -/
def kind59 (strict59 : Bool) (k : OpKind) (w : Word) : OpKind :=
  if nibbleOk strict59 (nField w) then k else .unrecognized

/-- Family 8, decoded on N (R92). -/
def kind8 (w : Word) : OpKind :=
  match (nField w).toNat with
  | 0x0 => .ldVxVy
  | 0x1 => .or
  | 0x2 => .and
  | 0x3 => .xor
  | 0x4 => .addVxVy
  | 0x5 => .sub
  | 0x6 => .shr
  | 0x7 => .subn
  | 0xE => .shl
  | _ => .unrecognized

/-- Family E, decoded on NN (R93). -/
def kindE (w : Word) : OpKind :=
  if nnField w = 0x9E then .skp else if nnField w = 0xA1 then .sknp else .unrecognized

/-- Family F, decoded on NN (R94). -/
def kindF (w : Word) : OpKind :=
  if nnField w = 0x07 then .ldVxDt
  else if nnField w = 0x0A then .ldVxK
  else if nnField w = 0x15 then .ldDtVx
  else if nnField w = 0x18 then .ldStVx
  else if nnField w = 0x1E then .addIVx
  else if nnField w = 0x29 then .ldFVx
  else if nnField w = 0x33 then .ldBVx
  else if nnField w = 0x55 then .ldMemVx
  else if nnField w = 0x65 then .ldVxMem
  else .unrecognized

/-- The kind of a word: the case split of R87 on the family. The last arm is family F, the only value left. -/
def kindOf (strict59 : Bool) (w : Word) : OpKind :=
  match (familyField w).toNat with
  | 0x0 => kind0 w
  | 0x1 => .jp
  | 0x2 => .call
  | 0x3 => .seVxNn
  | 0x4 => .sneVxNn
  | 0x5 => kind59 strict59 .seVxVy w
  | 0x6 => .ldVxNn
  | 0x7 => .addVxNn
  | 0x8 => kind8 w
  | 0x9 => kind59 strict59 .sneVxVy w
  | 0xA => .ldI
  | 0xB => .jpV0
  | 0xC => .rnd
  | 0xD => .drw
  | 0xE => kindE w
  | _ => kindF w

/-- `decode(w)` of R87: total on all 65536 words; it reads no state and no parameter but `STRICT_59` (R84). -/
def decodeOp (strict59 : Bool) (w : Word) : Op where
  kind := kindOf strict59 w
  x := xField w
  y := yField w
  n := nField w
  nn := nnField w
  nnn := nnnField w
  word := w

/-- The register a 4-bit field selects: all 16 values are legal (R83). -/
def regOf (f : BitVec 4) : Reg := f.toFin

/-- The instruction an operation record stands for, with the fields its kind reads (R97); none for UNRECOGNIZED,
which is no instruction (R95). -/
def Op.instr (o : Op) : Option Instr :=
  match o.kind with
  | .unrecognized => none
  | .cls => some .cls
  | .ret => some .ret
  | .jp => some (.jp o.nnn)
  | .call => some (.call o.nnn)
  | .seVxNn => some (.seVxNn (regOf o.x) o.nn)
  | .sneVxNn => some (.sneVxNn (regOf o.x) o.nn)
  | .seVxVy => some (.seVxVy (regOf o.x) (regOf o.y) o.n)
  | .ldVxNn => some (.ldVxNn (regOf o.x) o.nn)
  | .addVxNn => some (.addVxNn (regOf o.x) o.nn)
  | .ldVxVy => some (.ldVxVy (regOf o.x) (regOf o.y))
  | .or => some (.orVxVy (regOf o.x) (regOf o.y))
  | .and => some (.andVxVy (regOf o.x) (regOf o.y))
  | .xor => some (.xorVxVy (regOf o.x) (regOf o.y))
  | .addVxVy => some (.addVxVy (regOf o.x) (regOf o.y))
  | .sub => some (.subVxVy (regOf o.x) (regOf o.y))
  | .shr => some (.shrVxVy (regOf o.x) (regOf o.y))
  | .subn => some (.subnVxVy (regOf o.x) (regOf o.y))
  | .shl => some (.shlVxVy (regOf o.x) (regOf o.y))
  | .sneVxVy => some (.sneVxVy (regOf o.x) (regOf o.y) o.n)
  | .ldI => some (.ldINnn o.nnn)
  | .jpV0 => some (.jpV0 o.nnn)
  | .rnd => some (.rnd (regOf o.x) o.nn)
  | .drw => some (.drw (regOf o.x) (regOf o.y) o.n)
  | .skp => some (.skp (regOf o.x))
  | .sknp => some (.sknp (regOf o.x))
  | .ldVxDt => some (.ldVxDt (regOf o.x))
  | .ldVxK => some (.ldVxK (regOf o.x))
  | .ldDtVx => some (.ldDtVx (regOf o.x))
  | .ldStVx => some (.ldStVx (regOf o.x))
  | .addIVx => some (.addIVx (regOf o.x))
  | .ldFVx => some (.ldFVx (regOf o.x))
  | .ldBVx => some (.ldBVx (regOf o.x))
  | .ldMemVx => some (.ldMemVx (regOf o.x))
  | .ldVxMem => some (.ldVxMem (regOf o.x))

/-- The instruction a word decodes to; none is the explicit result UNRECOGNIZED (R95). -/
def decode (strict59 : Bool) (w : Word) : Option Instr := (decodeOp strict59 w).instr

/-! ### Bytes -/

/-- The word of two bytes, "first byte is the high byte" (R62). -/
def wordOfBytes (hi lo : Byte) : Word := hi ++ lo

/-- The byte of a word that lies at the lower address (R62). -/
def highByte (w : Word) : Byte := w.extractLsb' 8 8

/-- The byte of a word that lies at the higher address (R62). -/
def lowByte (w : Word) : Byte := w.extractLsb' 0 8

/-- Why bytes hold no instruction. -/
inductive DecodeReject where
  /-- Fewer than two bytes: no word to decode (R80). -/
  | truncated
  /-- The word is UNRECOGNIZED (R95). -/
  | unrecognized (w : Word)
deriving DecidableEq, Repr

/-- The decoder over bytes, total on any bytes: every instruction is two bytes long (R80), the high byte first. -/
def decodeBytes (strict59 : Bool) : List Byte → Except DecodeReject (Instr × List Byte)
  | hi :: lo :: rest =>
    match decode strict59 (wordOfBytes hi lo) with
    | some i => .ok (i, rest)
    | none => .error (.unrecognized (wordOfBytes hi lo))
  | _ => .error .truncated

/-! ### The encoder (R98) -/

/-- A word of the pattern FNNN. -/
def packNnn (f : BitVec 4) (nnn : BitVec 12) : Word := f ++ nnn

/-- A word of the pattern FXNN. -/
def packXnn (f : BitVec 4) (x : Reg) (nn : BitVec 8) : Word := f ++ BitVec.ofFin (w := 4) x ++ nn

/-- A word of the pattern FXYN. -/
def packXyn (f : BitVec 4) (x y : Reg) (n : BitVec 4) : Word :=
  f ++ BitVec.ofFin (w := 4) x ++ BitVec.ofFin (w := 4) y ++ n

/-- The word of an instruction: its fields placed into its pattern (R86, R98). -/
def encode : Instr → Word
  | .cls => 0x00E0
  | .ret => 0x00EE
  | .jp nnn => packNnn 0x1 nnn
  | .call nnn => packNnn 0x2 nnn
  | .seVxNn x nn => packXnn 0x3 x nn
  | .sneVxNn x nn => packXnn 0x4 x nn
  | .seVxVy x y n => packXyn 0x5 x y n
  | .ldVxNn x nn => packXnn 0x6 x nn
  | .addVxNn x nn => packXnn 0x7 x nn
  | .ldVxVy x y => packXyn 0x8 x y 0x0
  | .orVxVy x y => packXyn 0x8 x y 0x1
  | .andVxVy x y => packXyn 0x8 x y 0x2
  | .xorVxVy x y => packXyn 0x8 x y 0x3
  | .addVxVy x y => packXyn 0x8 x y 0x4
  | .subVxVy x y => packXyn 0x8 x y 0x5
  | .shrVxVy x y => packXyn 0x8 x y 0x6
  | .subnVxVy x y => packXyn 0x8 x y 0x7
  | .shlVxVy x y => packXyn 0x8 x y 0xE
  | .sneVxVy x y n => packXyn 0x9 x y n
  | .ldINnn nnn => packNnn 0xA nnn
  | .jpV0 nnn => packNnn 0xB nnn
  | .rnd x nn => packXnn 0xC x nn
  | .drw x y n => packXyn 0xD x y n
  | .skp x => packXnn 0xE x 0x9E
  | .sknp x => packXnn 0xE x 0xA1
  | .ldVxDt x => packXnn 0xF x 0x07
  | .ldVxK x => packXnn 0xF x 0x0A
  | .ldDtVx x => packXnn 0xF x 0x15
  | .ldStVx x => packXnn 0xF x 0x18
  | .addIVx x => packXnn 0xF x 0x1E
  | .ldFVx x => packXnn 0xF x 0x29
  | .ldBVx x => packXnn 0xF x 0x33
  | .ldMemVx x => packXnn 0xF x 0x55
  | .ldVxMem x => packXnn 0xF x 0x65

/-- The bytes of an instruction, the high byte at the lower address (R62, R80). -/
def encodeBytes (i : Instr) : List Byte := [highByte (encode i), lowByte (encode i)]

/-! ### The opcode table's words -/

/-- The instruction word whose bits, numbered as spec/opcode_table.json numbers them, are the low `nbits` of `w`. -/
def tableWord (nbits w : Nat) : Word := BitVec.ofNat 16 (w % 2 ^ nbits)

/-- What the decoder reads, with the default `STRICT_59` = true (R8), from a table row's word laid out as the
hardware stores it. -/
def decodeTableWord (nbits w : Nat) : Option Instr :=
  match decodeBytes true [highByte (tableWord nbits w), lowByte (tableWord nbits w)] with
  | .ok (i, _) => some i
  | .error _ => none

end Sys2Proof
end

