-- ==== Sys2Proof/Machine/Fetch.lean ====
section
/-! DEFINITION. Fetching an instruction (40_step_and_control_flow.md R111; 20_memory.md R62, R65), and placing one where
the next fetch reads it. -/

namespace Sys2Proof.Machine

/-- The address a failed fetch reports: the fetch check is R64 at PC for 2 bytes (R65). -/
def State.fetchCheck (s : State) : Option Word := boundsFault s.pc.toNat 2

/-- The word at PC: `(MEM[PC] << 8) | MEM[PC + 1]` (R62). -/
def State.fetchWord (s : State) : Word := wordOfBytes (s.readByte s.pc.toNat) (s.readByte (s.pc.toNat + 1))

/-- FetchOutOfRange: PC and LAST_OP keep their values (R232, R236). -/
def State.fetchFault (s : State) (addr : Word) : State := s.takeFault .fetchOutOfRange s.pc addr

/-- A fetch that succeeds: `LAST_OP <- w; PC <- (pc0 + 2) mod 2^16`, before any effect of the operation (R111). The step
draws its RND byte (R41): the model counts the draw here (log 2). -/
def State.fetched (s : State) (w : Word) : State :=
  { s with lastOp := w, pc := s.pc + 2, rndIndex := s.rndIndex + 1 }

/-- The instruction the state fetches next: none where it is UNRECOGNIZED. -/
def State.fetchInstr (s : State) : Option Instr := decode s.params.strict59 s.fetchWord

/-- A state whose next step request fetches: HALTED is cleared, and a PC that no fetch can use becomes 0x200 (log 15).
A state that can fetch is left as it is. -/
def State.readyToFetch (s : State) : State :=
  { s with halted := false, pc := if s.pc.toNat ≤ 4094 then s.pc else 0x200 }

/-- A word stored at PC, the high byte first (R62). -/
def State.placeWord (s : State) (w : Word) : State := s.writeBytes s.pc.toNat [highByte w, lowByte w]

end Sys2Proof.Machine
end

