-- ==== Sys2Proof/Machine/Step.lean ====
section
/-! DEFINITION. One step request (40_step_and_control_flow.md R110, R111). -/

namespace Sys2Proof.Machine

/-- A step request: refused while HALTED (R110); otherwise the fetch check (R65), the fetch, the PC advance and the
decoded operation, or the no-op of an UNRECOGNIZED word (R95, R111). -/
def step (s : State) : Host.Outcome State Fault Refusal :=
  if s.halted then .next s.refuse
  else match s.fetchCheck with
    | some addr => .next (s.fetchFault addr)
    | none => match s.fetchInstr with
      | some i => exec i (s.fetched s.fetchWord)
      | none => .next (s.fetched s.fetchWord).completeUnrecognized

/-- `s` with the instruction word of an opcode-table row stored where the next step fetches (log 15). -/
def State.withFetchWord (s : State) (nbits w : Nat) : State := s.readyToFetch.placeWord (tableWord nbits w)

end Sys2Proof.Machine
end

