-- ==== Sys2Proof/Machine/HostPort.lean ====
section
/-! DEFINITION. The host's ports (60_exceptions.md R245): the actions it takes between steps, what they answer, and what
it reads. -/

namespace Sys2Proof.Machine

/-! ### Actions (R18, R270) -/

/-- SET_KEY(k): `KEY <- k`; only the most recent one is visible (R198). -/
def State.setKey (s : State) (k : Option (BitVec 4)) : State := { s with key := k }

/-- `max(t - 1, 0)` (R199). -/
def tickDown (t : Byte) : Byte := if t = 0 then 0 else t - 1

/-- TICK: both timers count down one, clamped at 0 (R32, R199). -/
def State.tick (s : State) : State := { s with dt := tickDown s.dt, st := tickDown s.st }

/-- Whether LOAD takes an image: at most 3584 bytes (R264). -/
def loadAccepted (bytes : List Byte) : Bool := decide (bytes.length ≤ memSize - loadBase)

/-- LOAD: the bytes overwrite memory from 0x200 on; an oversized image changes nothing (R264). -/
def State.load (s : State) (bytes : List Byte) : State :=
  if loadAccepted bytes then s.writeBytes loadBase bytes else s

/-- Power-on reset of a machine in use: every piece of state at its power-on value (R260). The parameters stay and RND goes
on (log 17). -/
def State.powerOnReset (s : State) : State := { State.powerOn s.params with rndIndex := s.rndIndex }

/-- The memory after a soft reset: the cells below 0x200 kept, the program region zeroed (R261). -/
def State.memKept (s : State) : Memory := s.mem.filter fun c => decide (c.1 < loadBase)

/-- Soft reset: the power-on state but for MEM[0..0x1FF] and KEY (R261, D19, D36). -/
def State.softReset (s : State) : State :=
  { State.powerOn s.params with mem := s.memKept, key := s.key, rndIndex := s.rndIndex }

/-- `n` step requests in a row. A step always answers a next state (log 3); the other two outcomes would end the row. -/
def stepTimes : Nat → State → Host.Outcome State Fault Refusal
  | 0, s => .next s
  | n + 1, s =>
    match step s with
    | .next t => stepTimes n t
    | .fault r => .fault r
    | .refused r => .refused r

/-- The start of a frame: `STATUS.DRAW <- 0` (R43, R266). -/
def State.frameStart (s : State) : State := { s with draw := false }

/-- FRAME: `FRAME_BUDGET` step requests (R266). -/
def frame (s : State) : Host.Outcome State Fault Refusal := stepTimes s.params.frameBudget s.frameStart

/-- The host's actions on the core: each atomic, between steps (R270). -/
inductive HostAction where
  /-- STEP (R110). -/
  | step
  /-- FRAME (R266). -/
  | frame
  /-- SET_KEY (R198). -/
  | setKey (k : Option (BitVec 4))
  /-- TICK (R199). -/
  | tick
  /-- LOAD (R264). -/
  | load (bytes : List Byte)
  /-- Power-on reset (R260). -/
  | powerOnReset
  /-- Soft reset (R261). -/
  | softReset
deriving DecidableEq, Repr

/-- The effect of a host action. -/
def act (a : HostAction) (s : State) : Host.Outcome State Fault Refusal :=
  match a with
  | .step => Sys2Proof.Machine.step s
  | .frame => Sys2Proof.Machine.frame s
  | .setKey k => .next (s.setKey k)
  | .tick => .next s.tick
  | .load bytes => .next (s.load bytes)
  | .powerOnReset => .next s.powerOnReset
  | .softReset => .next s.softReset

/-- What a host action answers (the ports table of R245). The events of a frame's requests are no answer of FRAME: the
diagnostics port reports them, `actEvents`. -/
inductive Reply where
  /-- STEP: the step's event (R53). -/
  | event (e : Event)
  /-- FRAME: redraw-needed (R266). -/
  | redrawNeeded (b : Bool)
  /-- LOAD: accepted or rejected (R264). -/
  | loaded (accepted : Bool)
  /-- The actions that answer nothing. -/
  | done
deriving DecidableEq, Repr

/-- The answer to an action that left the state `t`. -/
def reply (a : HostAction) (t : State) : Reply :=
  match a with
  | .step => .event t.lastEvent
  | .frame => .redrawNeeded t.draw
  | .setKey _ => .done
  | .tick => .done
  | .load bytes => .loaded (loadAccepted bytes)
  | .powerOnReset => .done
  | .softReset => .done

/-! ### Events: the diagnostics port's report of each step request (R52, R53) -/

/-- The events of `n` step requests in a row, the first request's first: each request reports the one it latches in LAST_EVENT
(R53). -/
def stepEvents : Nat → State → List Event
  | 0, _ => []
  | n + 1, s =>
    match step s with
    | .next t => t.lastEvent :: stepEvents n t
    | .fault _ => []
    | .refused _ => []

/-- The events a host action started in `s` makes the diagnostics port report: one for each step request it issues, so one
for STEP (R110), `FRAME_BUDGET` for FRAME (R266), and none for the others, which issue none. -/
def actEvents (a : HostAction) (s : State) : List Event :=
  match a with
  | .step => stepEvents 1 s
  | .frame => stepEvents s.params.frameBudget s.frameStart
  | .setKey _ => []
  | .tick => []
  | .load _ => []
  | .powerOnReset => []
  | .softReset => []

/-- Actions in a row: any interleaving the host chooses (R270, R272). -/
def actAll : List HostAction → State → Host.Outcome State Fault Refusal
  | [], s => .next s
  | a :: as, s =>
    match act a s with
    | .next t => actAll as t
    | .fault r => .fault r
    | .refused r => .refused r

/-- The stream of events that a row of actions reports: what the sink outside the core builds its log from (R52). -/
def allEvents : List HostAction → State → List Event
  | [], _ => []
  | a :: as, s =>
    match act a s with
    | .next t => actEvents a s ++ allEvents as t
    | .fault _ => actEvents a s
    | .refused _ => actEvents a s

/-! ### Read ports -/

/-- The code of `FAULT_CODE` (R38). -/
def faultCodeBits : FaultCode → BitVec 3
  | .none => 0
  | .stackOverflow => 1
  | .stackUnderflow => 2
  | .fetchOutOfRange => 3
  | .readOutOfRange => 4
  | .writeOutOfRange => 5

/-- The code of `LAST_EVENT` (R53). -/
def eventBits : Event → BitVec 2
  | .none => 0
  | .decodeError => 1
  | .fault => 2
  | .refused => 3

/-- The STATUS byte: bit 0 HALTED, bit 1 DRAW, bit 2 WAITING, bits 4:3 LAST_EVENT, bits 7:5 zero (R46). -/
def State.statusWord (s : State) : BitVec 8 :=
  0#3 ++ eventBits s.lastEvent ++ BitVec.ofBool s.waiting ++ BitVec.ofBool s.draw ++ BitVec.ofBool s.halted

/-- DISPLAY: the pixel at linear index `y*64 + x` (R34). -/
def State.displayPixel (s : State) (k : Fin 2048) : Bool := s.fb.readPort k

/-- DIAG: the registers the diagnostics port shows between steps (R52). Its report of each step's event is `actEvents`. -/
structure DiagView where
  v : Vector Byte 16
  pc : Word
  i : Word
  sp : Fin 17
  stack : Vector Word 16
  dt : Byte
  st : Byte
  lastOp : Word
  status : BitVec 8
  faultCode : BitVec 3
  faultPc : Word
  faultAddr : Word
deriving DecidableEq, Repr

/-- The view the host reads between steps (R52, R77). -/
def State.diag (s : State) : DiagView where
  v := s.v
  pc := s.pc
  i := s.i
  sp := s.sp
  stack := s.stack
  dt := s.dt
  st := s.st
  lastOp := s.lastOp
  status := s.statusWord
  faultCode := faultCodeBits s.faultCode
  faultPc := s.faultPc
  faultAddr := s.faultAddr

end Sys2Proof.Machine
end

