-- ==== Sys2Proof/Safety.lean ====
section
/-! DEFINITION. The terms statements are made in: the pieces of state and what "unchanged" means, what a completed step
and a recorded fault look like, the invariant, and which states the host can bring about. -/

namespace Sys2Proof.Machine

/-! ### Frames -/

/-- A piece of the state (10_state.md R20), one register, one pixel or one byte at a time. -/
inductive Piece where
  | reg (k : Reg)
  | pc
  | i
  | stack (k : Fin 16)
  | sp
  | dt
  | st
  | pixel (x : Fin 64) (y : Fin 32)
  | key
  | lastOp
  | halted
  | draw
  | waiting
  | lastEvent
  | faultCode
  | faultPc
  | faultAddr
  | byte (a : Nat)
  | params
  | rndIndex
deriving DecidableEq, Repr

/-- `FB[x][y]` of a state. -/
def State.pixel (s : State) (x : Fin 64) (y : Fin 32) : Bool := s.fb.pixel x y

/-- The piece reads the same in `s` and `t`. -/
def Piece.same (s t : State) : Piece → Prop
  | .reg k => t.reg k = s.reg k
  | .pc => t.pc = s.pc
  | .i => t.i = s.i
  | .stack k => t.stack[k] = s.stack[k]
  | .sp => t.sp = s.sp
  | .dt => t.dt = s.dt
  | .st => t.st = s.st
  | .pixel x y => t.pixel x y = s.pixel x y
  | .key => t.key = s.key
  | .lastOp => t.lastOp = s.lastOp
  | .halted => t.halted = s.halted
  | .draw => t.draw = s.draw
  | .waiting => t.waiting = s.waiting
  | .lastEvent => t.lastEvent = s.lastEvent
  | .faultCode => t.faultCode = s.faultCode
  | .faultPc => t.faultPc = s.faultPc
  | .faultAddr => t.faultAddr = s.faultAddr
  | .byte a => t.readByte a = s.readByte a
  | .params => t.params = s.params
  | .rndIndex => t.rndIndex = s.rndIndex

/-- Every piece outside `changed` reads the same in `t` as in `s`. -/
def UnchangedBut (changed : Piece → Prop) (s t : State) : Prop := ∀ p, ¬changed p → p.same s t

/-- The two status fields that every performed step writes at its end (R111). -/
def Piece.closing (p : Piece) : Prop := p = .lastEvent ∨ p = .waiting

/-- The pieces the entry of a fault writes (R236). -/
def Piece.faultEntry (p : Piece) : Prop :=
  p.closing ∨ p = .halted ∨ p = .faultCode ∨ p = .faultPc ∨ p = .faultAddr

/-- The byte lies in the range of `n` bytes at base `a`. -/
def Piece.inRange (a n : Nat) (p : Piece) : Prop := ∃ k, k < n ∧ p = .byte (a + k)

/-! ### How a step ends -/

/-- The step completed with a recognized operation that does not wait (R53, R111). -/
def Completed (t : State) : Prop := t.lastEvent = .none ∧ t.waiting = false

/-- `t` is `s` with the fault `code` raised by the instruction at `pc0`, reporting `addr`: the first fault is kept, the core
halts unless `CONTINUE_AFTER_FAULT`, and nothing else changes (R38, R236). -/
def FaultRecorded (code : FaultCode) (pc0 addr : Nat) (s t : State) : Prop :=
  (s.faultCode = .none → t.faultCode = code ∧ t.faultPc.toNat = pc0 ∧ t.faultAddr.toNat = addr) ∧
  (s.faultCode ≠ .none →
    t.faultCode = s.faultCode ∧ t.faultPc = s.faultPc ∧ t.faultAddr = s.faultAddr) ∧
  t.lastEvent = .fault ∧ t.waiting = false ∧
  (s.params.continueAfterFault = false → t.halted = true) ∧
  (s.params.continueAfterFault = true → t.halted = s.halted) ∧
  UnchangedBut Piece.faultEntry s t

/-- A run's successful end, in the core's own terms: not halted and no fault recorded (R124). -/
def NoFault (s : State) : Prop := s.halted = false ∧ s.faultCode = .none

/-! ### Sprites -/

/-- A 1 bit of the sprite `rows` at (`x0`, `y0`) falls on the pixel (`x`, `y`): bit `7 - b` of row `r` lies at column
`x0 + b` of grid row `y0 + r`, with no wrap (R213, R214). -/
def Covers (x0 y0 : Nat) (rows : List Byte) (x : Fin 64) (y : Fin 32) : Prop :=
  ∃ r b : Nat, ∃ row : Byte, rows[r]? = some row ∧ b < 8 ∧ row.getLsbD (7 - b) = true ∧
    x.val = x0 + b ∧ y.val = y0 + r

/-! ### The invariant -/

/-- What holds of every state the host and the core can bring about (10_state.md R38, R44, R45, R53, R54), and of memory's
form (log 10). The bounds of SP, the registers, the pixels and FAULT_CODE are the types' own. `waitingRuns` lets WAITING
stand beside DECODE_ERROR only on a machine whose decode errors keep it (log 6). -/
structure StateInv (s : State) : Prop where
  memory : Memory.wf s.unlisted s.mem
  noFault : s.faultCode = .none → s.faultPc = 0 ∧ s.faultAddr = 0
  stackFault : s.faultCode = .stackOverflow ∨ s.faultCode = .stackUnderflow → s.faultAddr = 0
  rangeFault : s.faultCode = .fetchOutOfRange ∨ s.faultCode = .readOutOfRange → 4096 ≤ s.faultAddr.toNat
  storeFault : s.faultCode = .writeOutOfRange →
    4096 ≤ s.faultAddr.toNat ∨ s.params.fontWriteProtect = true ∧ s.faultAddr.toNat < 80
  haltedFault : s.halted = true → s.faultCode ≠ .none
  faultHalts : s.faultCode ≠ .none → s.params.continueAfterFault = false → s.halted = true
  faultEvent : s.lastEvent = .fault → s.faultCode ≠ .none
  refusedEvent : s.lastEvent = .refused → s.halted = true
  waitingRuns : s.waiting = true → s.halted = false ∧
    (s.lastEvent = .none ∨ s.params.decodeErrorKeepsWaiting = true ∧ s.lastEvent = .decodeError)

/-! ### Visibility -/

/-- The diagnostic pieces: nothing a program can see (10_state.md R37, R42, R43, R44, R50). -/
def Piece.diagnostic (p : Piece) : Prop :=
  p.closing ∨ p = .lastOp ∨ p = .draw ∨ p = .faultCode ∨ p = .faultPc ∨ p = .faultAddr

/-- Two states a program cannot tell apart, now or later: every piece but the diagnostic ones reads the same. -/
def SameToPrograms (s s' : State) : Prop := UnchangedBut Piece.diagnostic s s'

/-! ### Shapes of instructions -/

/-- `i` completes from every state with V[x] holding the byte whose value is `val`; nothing else changes but the closing
status. PC stays the advanced one. -/
def WritesReg (i : Instr) (x : Reg) (val : State → Nat) : Prop :=
  ∀ s : State, ∃ t, exec i s = .next t ∧ Completed t ∧ (t.reg x).toNat = val s ∧
    UnchangedBut (fun p => p.closing ∨ p = .reg x) s t

/-- `i` completes from every state with PC holding `target`; nothing else changes but the closing status. -/
def WritesPc (i : Instr) (target : State → Nat) : Prop :=
  ∀ s : State, ∃ t, exec i s = .next t ∧ Completed t ∧ t.pc.toNat = target s ∧
    UnchangedBut (fun p => p.closing ∨ p = .pc) s t

/-- `i` completes from every state with I holding `val`; nothing else changes but the closing status. -/
def WritesI (i : Instr) (val : State → Nat) : Prop :=
  ∀ s : State, ∃ t, exec i s = .next t ∧ Completed t ∧ t.i.toNat = val s ∧
    UnchangedBut (fun p => p.closing ∨ p = .i) s t

/-- PC after a skip instruction with the condition `c`: the advanced PC, or 2 more mod 2^16 (R113). -/
def skipTarget (s : State) (c : Prop) [Decidable c] : Nat :=
  if c then (s.pc.toNat + 2) % 65536 else s.pc.toNat

/-- `i` completes from every state as a flag-producing operation with destination V[x], result `r` and flag `f`: for
x ≠ 15 V[x] holds the result and VF the flag; for x = 15 VF ends as the flag where the flag is written last. Nothing else
changes but the closing status. -/
def WritesResultAndFlag (i : Instr) (x : Reg) (r f : State → Nat) : Prop :=
  ∀ s : State, ∃ t, exec i s = .next t ∧ Completed t ∧
    (x ≠ 15 → (t.reg x).toNat = r s ∧ (t.reg 15).toNat = f s) ∧
    (x = 15 → s.params.flagWriteLast = true → (t.reg 15).toNat = f s) ∧
    UnchangedBut (fun p => p.closing ∨ p = .reg x ∨ p = .reg 15) s t

/-- With the flag written first, `i`, a flag-producing operation on VF itself, leaves VF holding its result. -/
def LeavesResultInVf (i : Instr) (r : State → Nat) : Prop :=
  ∀ s : State, s.params.flagWriteLast = false →
    ∃ t, exec i s = .next t ∧ Completed t ∧ (t.reg 15).toNat = r s ∧
      UnchangedBut (fun p => p.closing ∨ p = .reg 15) s t

/-- The instructions that may change VF: the flag producers and DXYN, which write it implicitly, and those whose destination
is V[15] (R22, R36). -/
def mayWriteVf : Instr → Bool
  | .cls => false
  | .ret => false
  | .jp _ => false
  | .call _ => false
  | .seVxNn _ _ => false
  | .sneVxNn _ _ => false
  | .seVxVy _ _ _ => false
  | .ldVxNn x _ => x == 15
  | .addVxNn x _ => x == 15
  | .ldVxVy x _ => x == 15
  | .orVxVy x _ => x == 15
  | .andVxVy x _ => x == 15
  | .xorVxVy x _ => x == 15
  | .addVxVy _ _ => true
  | .subVxVy _ _ => true
  | .shrVxVy _ _ => true
  | .subnVxVy _ _ => true
  | .shlVxVy _ _ => true
  | .sneVxVy _ _ _ => false
  | .ldINnn _ => false
  | .jpV0 _ => false
  | .rnd x _ => x == 15
  | .drw _ _ _ => true
  | .skp _ => false
  | .sknp _ => false
  | .ldVxDt x => x == 15
  | .ldVxK x => x == 15
  | .ldDtVx _ => false
  | .ldStVx _ => false
  | .addIVx _ => false
  | .ldFVx _ => false
  | .ldBVx _ => false
  | .ldMemVx _ => false
  | .ldVxMem x => x == 15

/-- The power-on column of R48, as pieces read it. -/
structure PowerOnValues (s : State) : Prop where
  font : ∀ a (h : a < 80), s.readByte a = s.params.font[a]
  rest : ∀ a, 80 ≤ a → s.readByte a = 0
  regs : ∀ k, s.reg k = 0
  pc : s.pc = 0x200
  i : s.i = 0
  stack : ∀ k : Fin 16, s.stack[k] = 0
  sp : s.sp = 0
  timers : s.dt = 0 ∧ s.st = 0
  display : ∀ x y, s.pixel x y = false
  key : s.key = none
  lastOp : s.lastOp = 0
  status : s.halted = false ∧ s.draw = false ∧ s.waiting = false ∧ s.lastEvent = .none
  faults : s.faultCode = .none ∧ s.faultPc = 0 ∧ s.faultAddr = 0

end Sys2Proof.Machine
end

