-- ==== Sys2Proof/Certificates/Slice0/Obligations.lean ====
section
/-! DEFINITION. The statements for the provers, from the numbered rules of spec/. `exec i s` is the execute phase of R111:
in it PC is the advanced pc0 + 2, and pc0 is `s.pc - 2`. -/

open Sys2Proof Sys2Proof.Machine

/-! ### Decoder and encoder (30_encoding.md) -/

/-- A word of each of the 34 kinds of R86, from the spec's decoder table (95_test_vectors.md L2.1), decodes to the instruction
it names, and words of its holes to none. -/
def Obligations.SpecWordsDecode : Prop :=
  decode true 0x00E0 = some .cls ∧ decode true 0x00EE = some .ret ∧ decode true 0x1234 = some (.jp 0x234) ∧
  decode true 0x2FFF = some (.call 0xFFF) ∧ decode true 0x3A5B = some (.seVxNn 10 0x5B) ∧
  decode true 0x4A5B = some (.sneVxNn 10 0x5B) ∧ decode true 0x5120 = some (.seVxVy 1 2 0) ∧
  decode true 0x6AFF = some (.ldVxNn 10 0xFF) ∧ decode true 0x7A01 = some (.addVxNn 10 0x01) ∧
  decode true 0x8AB0 = some (.ldVxVy 10 11) ∧ decode true 0x8AB1 = some (.orVxVy 10 11) ∧
  decode true 0x8AB2 = some (.andVxVy 10 11) ∧ decode true 0x8AB3 = some (.xorVxVy 10 11) ∧
  decode true 0x8AB4 = some (.addVxVy 10 11) ∧ decode true 0x8AB5 = some (.subVxVy 10 11) ∧
  decode true 0x8AB6 = some (.shrVxVy 10 11) ∧ decode true 0x8AB7 = some (.subnVxVy 10 11) ∧
  decode true 0x8ABE = some (.shlVxVy 10 11) ∧ decode true 0x9120 = some (.sneVxVy 1 2 0) ∧
  decode true 0xA300 = some (.ldINnn 0x300) ∧ decode true 0xB206 = some (.jpV0 0x206) ∧
  decode true 0xC30F = some (.rnd 3 0x0F) ∧ decode true 0xD011 = some (.drw 0 1 1) ∧
  decode true 0xE39E = some (.skp 3) ∧ decode true 0xE3A1 = some (.sknp 3) ∧
  decode true 0xF307 = some (.ldVxDt 3) ∧ decode true 0xF30A = some (.ldVxK 3) ∧
  decode true 0xF315 = some (.ldDtVx 3) ∧ decode true 0xF318 = some (.ldStVx 3) ∧
  decode true 0xF31E = some (.addIVx 3) ∧ decode true 0xF329 = some (.ldFVx 3) ∧
  decode true 0xF333 = some (.ldBVx 3) ∧ decode true 0xF355 = some (.ldMemVx 3) ∧
  decode true 0xF365 = some (.ldVxMem 3) ∧
  decode true 0x0000 = none ∧ decode true 0x01EE = none ∧ decode true 0x5121 = none ∧
  decode false 0x5121 = some (.seVxVy 1 2 1) ∧ decode true 0x8AB8 = none ∧ decode true 0xE300 = none ∧
  decode true 0xF366 = none

/-- R98: decoding the word of a well-formed instruction gives the instruction back, with every operand at every value, and
encoding what a word decodes to gives the word back; for both values of `STRICT_59`. -/
def Obligations.DecodeAndEncodeAreInverse : Prop :=
  (∀ (strict : Bool) (i : Instr), i.wellFormed strict = true → decode strict (encode i) = some i) ∧
  (∀ (strict : Bool) (w : Word) (i : Instr), decode strict w = some i → encode i = w)

/-- R91: what the decoder answers is always an instruction of the machine: 5XYN and 9XYN carry a low nibble other than 0 only
where `STRICT_59` is false. -/
def Obligations.DecodedInstructionsAreWellFormed : Prop :=
  ∀ (strict : Bool) (w : Word) (i : Instr), decode strict w = some i → i.wellFormed strict = true

/-- R88, R91 to R95: the UNRECOGNIZED words, by their hex digits. Every word of the families 1 to 4, 6, 7 and A to D is an
instruction. -/
def Obligations.UnrecognizedWordsAreTheHolesOfTheMap : Prop :=
  ∀ (strict : Bool) (w : Word), decode strict w = none ↔
    (w.toNat / 4096 = 0 ∧ w ≠ 0x00E0 ∧ w ≠ 0x00EE) ∨
    (strict = true ∧ (w.toNat / 4096 = 5 ∨ w.toNat / 4096 = 9) ∧ w.toNat % 16 ≠ 0) ∨
    (w.toNat / 4096 = 8 ∧ 7 < w.toNat % 16 ∧ w.toNat % 16 ≠ 14) ∨
    (w.toNat / 4096 = 14 ∧ w.toNat % 256 ≠ 0x9E ∧ w.toNat % 256 ≠ 0xA1) ∨
    (w.toNat / 4096 = 15 ∧ w.toNat % 256 ∉ [0x07, 0x0A, 0x15, 0x18, 0x1E, 0x29, 0x33, 0x55, 0x65])

/-- R81: the six fields of a word are fixed slices. The operation record holds five of them, X, Y, N, NN and NNN, and the word
itself, for every word whatever its kind (R84, R85: that every field is always emitted is the spec's own decision D38); the
family F shows in it only through the kind. -/
def Obligations.OperationRecordCarriesEveryField : Prop :=
  ∀ (strict : Bool) (w : Word),
    (familyField w).toNat = w.toNat / 4096 ∧
    (decodeOp strict w).x.toNat = w.toNat / 256 % 16 ∧
    (decodeOp strict w).y.toNat = w.toNat / 16 % 16 ∧
    (decodeOp strict w).n.toNat = w.toNat % 16 ∧
    (decodeOp strict w).nn.toNat = w.toNat % 256 ∧
    (decodeOp strict w).nnn.toNat = w.toNat % 4096 ∧
    (decodeOp strict w).word = w

/-! ### Memory (20_memory.md) -/

/-- A write to memory in its canonical form changes the one byte and keeps the form (R60, R71; the form is the model's own,
log 10). -/
def Obligations.MemoryWriteChangesOneByte : Prop :=
  ∀ (d : Nat → Byte) (m : Memory) (a : Nat) (b : Byte), Memory.wf d m → a < 4096 →
    Memory.wf d (Memory.write d m a b) ∧
    ∀ a', Memory.read d (Memory.write d m a b) a' = if a' = a then b else Memory.read d m a'

/-- Two canonical memories that read alike everywhere are the same data (log 10). -/
def Obligations.CanonicalMemoryIsFixedByItsReads : Prop :=
  ∀ (d : Nat → Byte) (m m' : Memory), Memory.wf d m → Memory.wf d m' →
    (∀ a, Memory.read d m a = Memory.read d m' a) → m = m'

/-! ### The step (40_step_and_control_flow.md R110, R111) -/

/-- R62, R111: a core that is not halted, with PC ≤ 4094 and a word at PC (high byte first) that decodes to `i`, runs exactly
`i`, after LAST_OP takes the word and PC advances by 2; around it the model only counts the draw of RND (log 2). -/
def Obligations.StepRunsTheDecodedInstruction : Prop :=
  ∀ (s : State) (w : Word) (i : Instr), s.halted = false → s.pc.toNat ≤ 4094 →
    w.toNat = (s.readByte s.pc.toNat).toNat * 256 + (s.readByte (s.pc.toNat + 1)).toNat →
    decode s.params.strict59 w = some i →
    step s = exec i { s with lastOp := w, pc := s.pc + 2, rndIndex := s.rndIndex + 1 }

/-- R95, R235, R111: an UNRECOGNIZED word is a no-op beyond the PC advance: PC + 2, LAST_OP, LAST_EVENT = DECODE_ERROR. Of WAITING
the spec's rules part, and the model admits both (its own parameter, DESIGN CHOICE, log 6): by default it is 0, as at the end of
every step that is no waiting FX0A (R44, R111). Where it was 0 before, or a decode error keeps it, nothing but PC, LAST_OP and
LAST_EVENT changes (R95, R235), beside the model's count of draws (log 2). -/
def Obligations.UnrecognizedWordIsANoOp : Prop :=
  ∀ (s : State) (w : Word), s.halted = false → s.pc.toNat ≤ 4094 →
    w.toNat = (s.readByte s.pc.toNat).toNat * 256 + (s.readByte (s.pc.toNat + 1)).toNat →
    decode s.params.strict59 w = none →
    ∃ t, step s = .next t ∧ t.pc.toNat = s.pc.toNat + 2 ∧ t.lastOp = w ∧ t.lastEvent = .decodeError ∧
      (s.params.decodeErrorKeepsWaiting = false → t.waiting = false) ∧
      UnchangedBut (fun p => p.closing ∨ p = .pc ∨ p = .lastOp ∨ p = .rndIndex) s t ∧
      (s.params.decodeErrorKeepsWaiting = true ∨ s.waiting = false →
        UnchangedBut (fun p => p = .lastEvent ∨ p = .pc ∨ p = .lastOp ∨ p = .rndIndex) s t)

/-- R65, R232, R236 (decisions D2, D4, D5): a fetch with PC > 4094 raises FetchOutOfRange at max(PC, 4096), and PC and
LAST_OP keep their values. -/
def Obligations.FetchPastTheEndIsAFault : Prop :=
  ∀ s : State, s.halted = false → 4094 < s.pc.toNat →
    ∃ t, step s = .next t ∧ FaultRecorded .fetchOutOfRange s.pc.toNat (max s.pc.toNat 4096) s t

/-- R45, R110 (decision D3): while HALTED every step request is refused and changes only LAST_EVENT. -/
def Obligations.HaltedCoreRefusesSteps : Prop :=
  ∀ s : State, s.halted = true → step s = .next { s with lastEvent := .refused }

/-- Every step request is answered with a next state. That a fatal fault, a refused request and an UNRECOGNIZED word show as
next states, never as a fault or a refusal of the host's interface, is the model's own reading (DEDUCED, log 3, log 4): the
spec gives each of them an effect on the state and an event (R53, R110, R236), and no rule of the core's ceasing to answer. -/
def Obligations.StepAlwaysAnswersANextState : Prop := ∀ s : State, ∃ t, step s = .next t

/-! ### The invariant (10_state.md R54) -/

/-- R54, with R38, R44, R45, R53: the invariant holds after power-on, for every choice of the parameters. -/
def Obligations.PowerOnMeetsTheInvariant : Prop := ∀ p : Params, StateInv (State.powerOn p)

/-- R54, with R38, R44, R45, R53: every step request keeps the invariant, from every state that meets it. WAITING stands only
beside LAST_EVENT NONE, or beside DECODE_ERROR on a machine whose decode errors keep it: which they do is a parameter of the
model's own (DESIGN CHOICE, log 6). -/
def Obligations.StepKeepsTheInvariant : Prop := ∀ s t : State, StateInv s → step s = .next t → StateInv t

/-- R54, R262, R264, R266, R270: every host action keeps the invariant: steps, frames, SET_KEY, TICK, LOAD and both resets. Its
clause on WAITING is as StepKeepsTheInvariant says (log 6). -/
def Obligations.HostActionsKeepTheInvariant : Prop :=
  ∀ (a : HostAction) (s t : State), StateInv s → act a s = .next t → StateInv t

/-! ### Rules about the whole machine -/

/-- R32: no step changes a timer except FX15 and FX18; TICK takes one off each, never below 0, and changes nothing else. Which
of the two instructions writes which timer is TimerTransfers' concern. -/
def Obligations.OnlyTimerInstructionsChangeTheTimers : Prop :=
  (∀ s t : State, step s = .next t →
    t.dt ≠ s.dt ∨ t.st ≠ s.st → ∃ x, s.fetchInstr = some (.ldDtVx x) ∨ s.fetchInstr = some (.ldStVx x)) ∧
  (∀ s : State, ∃ t, act .tick s = .next t ∧ t.dt.toNat = s.dt.toNat - 1 ∧ t.st.toNat = s.st.toNat - 1 ∧
    UnchangedBut (fun p => p = .dt ∨ p = .st) s t)

/-- R33: a step changes a pixel only if it executes 00E0 or DXYN. -/
def Obligations.OnlyClearAndDrawChangeTheDisplay : Prop :=
  ∀ s t : State, step s = .next t → ∀ x y, t.pixel x y ≠ s.pixel x y →
    s.fetchInstr = some .cls ∨ ∃ vx vy n, s.fetchInstr = some (.drw vx vy n)

/-- R61, R64: a step changes a byte of memory only if it executes FX33 or FX55, and then only a byte of that access, inside
the address space. -/
def Obligations.OnlyStoresChangeMemory : Prop :=
  ∀ s t : State, Memory.wf s.unlisted s.mem → step s = .next t → ∀ a, t.readByte a ≠ s.readByte a →
    a < 4096 ∧ ∃ x n, (s.fetchInstr = some (.ldBVx x) ∧ n = 3 ∨ s.fetchInstr = some (.ldMemVx x) ∧ n = x.val + 1) ∧
      s.i.toNat ≤ a ∧ a < s.i.toNat + n

/-- R26: a step changes I only if it executes ANNN, FX1E or FX29. -/
def Obligations.OnlyIndexInstructionsChangeI : Prop :=
  ∀ s t : State, step s = .next t → t.i ≠ s.i →
    (∃ nnn, s.fetchInstr = some (.ldINnn nnn)) ∨ (∃ x, s.fetchInstr = some (.addIVx x)) ∨
    ∃ x, s.fetchInstr = some (.ldFVx x)

/-- R27, R28: a step changes a stack entry only if it executes 2NNN, and then only the entry SP names; it changes SP only if
it executes 2NNN, which counts one more, or 00EE, which counts one less. -/
def Obligations.OnlyCallAndReturnMoveTheStack : Prop :=
  ∀ s t : State, step s = .next t →
    (∀ k : Fin 16, t.stack[k] ≠ s.stack[k] → (∃ nnn, s.fetchInstr = some (.call nnn)) ∧ k.val = s.sp.val) ∧
    (t.sp ≠ s.sp → ((∃ nnn, s.fetchInstr = some (.call nnn)) ∧ t.sp.val = s.sp.val + 1) ∨
      (s.fetchInstr = some .ret ∧ t.sp.val + 1 = s.sp.val))

/-- R40, R198 (decisions D12, D20), R8: no step changes KEY or a parameter; SET_KEY gives KEY its value, which is then the only
one visible, and changes nothing else. -/
def Obligations.NoStepChangesKeyOrParameters : Prop :=
  (∀ s t : State, step s = .next t → t.key = s.key ∧ t.params = s.params) ∧
  (∀ (k : Option (BitVec 4)) (s : State), ∃ t, act (.setKey k) s = .next t ∧ t.key = k ∧ UnchangedBut (· = .key) s t)

/-- R36: VF changes in a step only if it executes 8XY4, 8XY5, 8XY6, 8XY7, 8XYE or DXYN, or an instruction whose destination
is V[15] itself. -/
def Obligations.OnlyFlagProducersWriteVfImplicitly : Prop :=
  ∀ s t : State, step s = .next t → t.reg 15 ≠ s.reg 15 → ∃ i, s.fetchInstr = some i ∧ mayWriteVf i = true

/-- R38, R45, R237 (decisions D3, D4): the first fault and a halt last until a reset: no other host action changes the fault
registers once a fault is recorded, or clears HALTED. -/
def Obligations.RecordedFaultLastsUntilAReset : Prop :=
  ∀ (a : HostAction) (s t : State), a ≠ .powerOnReset → a ≠ .softReset → act a s = .next t →
    (s.faultCode ≠ .none → t.faultCode = s.faultCode ∧ t.faultPc = s.faultPc ∧ t.faultAddr = s.faultAddr) ∧
    (s.halted = true → t.halted = true)

/-- R231 to R234, R240 (decisions D4, D17): a step that reports a fault had one of the listed causes; no other instruction and no
other operand faults. -/
def Obligations.FaultsComeOnlyFromTheirCauses : Prop :=
  ∀ s t : State, s.halted = false → step s = .next t → t.lastEvent = .fault →
    4094 < s.pc.toNat ∨
    ((∃ nnn, s.fetchInstr = some (.call nnn)) ∧ s.sp.val = 16) ∨
    (s.fetchInstr = some .ret ∧ s.sp.val = 0) ∨
    (∃ x y n, s.fetchInstr = some (.drw x y n) ∧ n ≠ 0 ∧ 4096 < s.i.toNat + n.toNat) ∨
    (∃ x, s.fetchInstr = some (.ldVxMem x) ∧ 4095 < s.i.toNat + x.val) ∨
    (∃ x, s.fetchInstr = some (.ldBVx x) ∧
      (4095 < s.i.toNat + 2 ∨ s.params.fontWriteProtect = true ∧ s.i.toNat < 80)) ∨
    ∃ x, s.fetchInstr = some (.ldMemVx x) ∧
      (4095 < s.i.toNat + x.val ∨ s.params.fontWriteProtect = true ∧ s.i.toNat < 80)

/-- R37, R42, R44: LAST_OP, DRAW, WAITING, LAST_EVENT and the fault registers never feed back into execution: two states
that differ only in them step to states that differ only in them. -/
def Obligations.DiagnosticsDoNotFeedBack : Prop :=
  ∀ s s' t : State, Memory.wf s.unlisted s.mem → Memory.wf s'.unlisted s'.mem → SameToPrograms s s' →
    step s = .next t → ∃ t', step s' = .next t' ∧ SameToPrograms t t'

/-! ### Register and arithmetic operations (41_alu.md) -/

/-- R142. -/
def Obligations.LoadImmediateWritesVx : Prop := ∀ (x : Reg) (nn : Byte), WritesReg (.ldVxNn x nn) x fun _ => nn.toNat

/-- R143: no flag, even on a carry out. -/
def Obligations.AddImmediateWrapsWithoutAFlag : Prop :=
  ∀ (x : Reg) (nn : Byte), WritesReg (.addVxNn x nn) x fun s => ((s.reg x).toNat + nn.toNat) % 256

/-- R144. -/
def Obligations.CopyWritesVyIntoVx : Prop := ∀ x y : Reg, WritesReg (.ldVxVy x y) x fun s => (s.reg y).toNat

/-- R145, R146, R147: the bitwise operations, bit by bit; VF is unchanged unless X = 15. -/
def Obligations.BitwiseOperationsWriteVxOnly : Prop :=
  ∀ x y : Reg,
    WritesReg (.orVxVy x y) x (fun s => (s.reg x).toNat ||| (s.reg y).toNat) ∧
    WritesReg (.andVxVy x y) x (fun s => (s.reg x).toNat &&& (s.reg y).toNat) ∧
    WritesReg (.xorVxVy x y) x (fun s => (s.reg x).toNat ^^^ (s.reg y).toNat)

/-- R149: the sum mod 256, and VF 1 iff the unmodded sum exceeds 255; with X = 15, VF is the flag under `FLAG_WRITE_LAST`. -/
def Obligations.AddWritesSumAndCarry : Prop :=
  ∀ x y : Reg, WritesResultAndFlag (.addVxVy x y) x
    (fun s => ((s.reg x).toNat + (s.reg y).toNat) % 256)
    (fun s => if (s.reg x).toNat + (s.reg y).toNat > 255 then 1 else 0)

/-- R150, R152: VF after 8XY5 is 0 iff V[Y] > V[X], after 8XY7 it is 1 iff V[Y] > V[X]; on equal operands 1 and 0.
With X = 15, VF is the flag under `FLAG_WRITE_LAST`. -/
def Obligations.SubtractionsWriteDifferenceAndFlag : Prop :=
  ∀ x y : Reg,
    WritesResultAndFlag (.subVxVy x y) x
      (fun s => ((s.reg x).toNat + 256 - (s.reg y).toNat) % 256)
      (fun s => if (s.reg y).toNat > (s.reg x).toNat then 0 else 1) ∧
    WritesResultAndFlag (.subnVxVy x y) x
      (fun s => ((s.reg y).toNat + 256 - (s.reg x).toNat) % 256)
      (fun s => if (s.reg y).toNat > (s.reg x).toNat then 1 else 0)

/-- R151, R153: the shifts of V[X] by one, whatever Y is; VF is the bit shifted out; with X = 15, VF is the flag under
`FLAG_WRITE_LAST` = true and the result under false. -/
def Obligations.ShiftsWriteTheBitShiftedOut : Prop :=
  ∀ x y : Reg,
    LeavesResultInVf (.shrVxVy 15 y) (fun s => (s.reg 15).toNat / 2) ∧
    LeavesResultInVf (.shlVxVy 15 y) (fun s => (s.reg 15).toNat * 2 % 256) ∧
    WritesResultAndFlag (.shrVxVy x y) x (fun s => (s.reg x).toNat / 2) (fun s => (s.reg x).toNat % 2) ∧
    WritesResultAndFlag (.shlVxVy x y) x (fun s => (s.reg x).toNat * 2 % 256) (fun s => (s.reg x).toNat / 128)

/-- R141 with `FLAG_WRITE_LAST` = false (the other value of the spec's own decision D7): 8XY4, 8XY5 and 8XY7 with X = 15 leave
VF holding the result. The shifts' own rules say it of them. -/
def Obligations.FlagWrittenFirstLeavesTheResultInVf : Prop :=
  ∀ y : Reg,
    LeavesResultInVf (.addVxVy 15 y) (fun s => ((s.reg 15).toNat + (s.reg y).toNat) % 256) ∧
    LeavesResultInVf (.subVxVy 15 y) (fun s => ((s.reg 15).toNat + 256 - (s.reg y).toNat) % 256) ∧
    LeavesResultInVf (.subnVxVy 15 y) (fun s => ((s.reg y).toNat + 256 - (s.reg 15).toNat) % 256)

/-- R154 (decision D28): V[X] takes the step's RND byte masked with NN. RND is the free value of log 2, of which nothing is
known: so the result's bits lie in NN's, and NN = 0 gives 0. -/
def Obligations.RandomByteIsMasked : Prop :=
  ∀ (x : Reg) (nn : Byte),
    WritesReg (.rnd x nn) x (fun s => (Config.randomByte s.rndIndex).toNat &&& nn.toNat) ∧
    ∀ s t : State, exec (.rnd x nn) s = .next t → t.reg x &&& nn = t.reg x ∧ (nn = 0 → t.reg x = 0)

/-! ### Control flow (40_step_and_control_flow.md) -/

/-- R117: the target is exact. -/
def Obligations.JumpGoesToNnn : Prop := ∀ nnn : BitVec 12, WritesPc (.jp nnn) fun _ => nnn.toNat

/-- R119, R120. -/
def Obligations.SkipsOnImmediateCompareVx : Prop :=
  ∀ (x : Reg) (nn : Byte),
    WritesPc (.seVxNn x nn) (fun s => skipTarget s (s.reg x = nn)) ∧
    WritesPc (.sneVxNn x nn) (fun s => skipTarget s (s.reg x ≠ nn))

/-- R121, R122: whatever the low nibble N is. -/
def Obligations.SkipsOnRegistersCompareVxAndVy : Prop :=
  ∀ (x y : Reg) (n : BitVec 4),
    WritesPc (.seVxVy x y n) (fun s => skipTarget s (s.reg x = s.reg y)) ∧
    WritesPc (.sneVxVy x y n) (fun s => skipTarget s (s.reg x ≠ s.reg y))

/-- R123: always V[0], and the sum does not wrap. -/
def Obligations.JumpWithOffsetAddsV0 : Prop :=
  ∀ nnn : BitVec 12, WritesPc (.jpV0 nnn) fun s => (s.reg 0).toNat + nnn.toNat

/-- R118, R114, R231 (decisions D4, D13): with SP < 16 CALL pushes the advanced PC and goes to NNN; with SP = 16 it raises
StackOverflow and nothing is pushed. -/
def Obligations.CallPushesOrOverflows : Prop :=
  ∀ (nnn : BitVec 12) (s : State),
    (∀ h : s.sp.val < 16, ∃ t, exec (.call nnn) s = .next t ∧ Completed t ∧ t.pc.toNat = nnn.toNat ∧
      t.sp.val = s.sp.val + 1 ∧ t.stack[s.sp.val] = s.pc ∧
      UnchangedBut (fun p => p.closing ∨ p = .pc ∨ p = .sp ∨ p = .stack ⟨s.sp.val, h⟩) s t) ∧
    (s.sp.val = 16 → ∃ t, exec (.call nnn) s = .next t ∧ FaultRecorded .stackOverflow (s.pc - 2).toNat 0 s t)

/-- R116, R114, R231 (decisions D4, D13): with SP > 0 RET goes to the entry on top and SP counts one less, the entry staying
in place; with SP = 0 it raises StackUnderflow. -/
def Obligations.ReturnPopsOrUnderflows : Prop :=
  ∀ s : State,
    (∀ h : 0 < s.sp.val, ∃ t, exec .ret s = .next t ∧ Completed t ∧ t.pc = s.stack[s.sp.val - 1]'(by omega) ∧
      t.sp.val + 1 = s.sp.val ∧ UnchangedBut (fun p => p.closing ∨ p = .pc ∨ p = .sp) s t) ∧
    (s.sp.val = 0 → ∃ t, exec .ret s = .next t ∧ FaultRecorded .stackUnderflow (s.pc - 2).toNat 0 s t)

/-- R118 (E4 of 95_test_vectors.md): a RET run right after a CALL returns to the address the CALL would have gone on to, with
SP at its pre-call depth, whatever the fetch in between did to PC. -/
def Obligations.ReturnAfterCallComesBack : Prop :=
  ∀ (nnn : BitVec 12) (s : State) (a : Word), s.sp.val < 16 →
    ∃ t u, exec (.call nnn) s = .next t ∧ exec .ret (t.setPc a) = .next u ∧ u.pc = s.pc ∧ u.sp = s.sp ∧
      ∀ k : Fin 16, k.val ≠ s.sp.val → u.stack[k] = s.stack[k]

/-! ### Index register and memory (42_index_and_memory.md) -/

/-- R171, R173: I takes NNN, or 5 times V[X], which is not masked. -/
def Obligations.LoadIndexAndGlyphAddress : Prop :=
  (∀ nnn : BitVec 12, WritesI (.ldINnn nnn) fun _ => nnn.toNat) ∧
  (∀ x : Reg, WritesI (.ldFVx x) fun s => (s.reg x).toNat * 5)

/-- R172 (decision D23): I wraps mod 2^16 and no flag is written. -/
def Obligations.AddToIndexWraps : Prop :=
  ∀ x : Reg, WritesI (.addIVx x) fun s => (s.i.toNat + (s.reg x).toNat) % 65536

/-- R175, R64, R69 (decisions D5, D17, D32): FX33 stores the hundreds, tens and units of V[X] at I, I+1 and I+2; past 4095,
or into a protected font, it raises WriteOutOfRange and stores nothing. -/
def Obligations.StoreDecimalDigitsOrFault : Prop :=
  ∀ (x : Reg) (s : State), Memory.wf s.unlisted s.mem →
    (s.i.toNat + 2 ≤ 4095 → (s.params.fontWriteProtect = true → 80 ≤ s.i.toNat) →
      ∃ t, exec (.ldBVx x) s = .next t ∧ Completed t ∧
        (t.readByte s.i.toNat).toNat = (s.reg x).toNat / 100 ∧
        (t.readByte (s.i.toNat + 1)).toNat = (s.reg x).toNat / 10 % 10 ∧
        (t.readByte (s.i.toNat + 2)).toNat = (s.reg x).toNat % 10 ∧
        UnchangedBut (fun p => p.closing ∨ p.inRange s.i.toNat 3) s t) ∧
    (4095 < s.i.toNat + 2 → ∃ t, exec (.ldBVx x) s = .next t ∧
      FaultRecorded .writeOutOfRange (s.pc - 2).toNat (max s.i.toNat 4096) s t) ∧
    (s.params.fontWriteProtect = true → s.i.toNat < 80 → ∃ t, exec (.ldBVx x) s = .next t ∧
      FaultRecorded .writeOutOfRange (s.pc - 2).toNat s.i.toNat s t)

/-- R176, R64, R69 (decisions D5, D17, D32): FX55 stores V[0] to V[X] at I to I+X and leaves I; past 4095, or into a protected
font, it raises WriteOutOfRange and stores nothing. -/
def Obligations.StoreRegistersOrFault : Prop :=
  ∀ (x : Reg) (s : State), Memory.wf s.unlisted s.mem →
    (s.i.toNat + x.val ≤ 4095 → (s.params.fontWriteProtect = true → 80 ≤ s.i.toNat) →
      ∃ t, exec (.ldMemVx x) s = .next t ∧ Completed t ∧
        (∀ k : Reg, k ≤ x → t.readByte (s.i.toNat + k.val) = s.reg k) ∧
        UnchangedBut (fun p => p.closing ∨ p.inRange s.i.toNat (x.val + 1)) s t) ∧
    (4095 < s.i.toNat + x.val → ∃ t, exec (.ldMemVx x) s = .next t ∧
      FaultRecorded .writeOutOfRange (s.pc - 2).toNat (max s.i.toNat 4096) s t) ∧
    (s.params.fontWriteProtect = true → s.i.toNat < 80 → ∃ t, exec (.ldMemVx x) s = .next t ∧
      FaultRecorded .writeOutOfRange (s.pc - 2).toNat s.i.toNat s t)

/-- R177, R64 (decisions D5, D32): FX65 loads V[0] to V[X] from I to I+X and leaves I; past 4095 it raises ReadOutOfRange and
loads nothing. -/
def Obligations.LoadRegistersOrFault : Prop :=
  ∀ (x : Reg) (s : State),
    (s.i.toNat + x.val ≤ 4095 → ∃ t, exec (.ldVxMem x) s = .next t ∧ Completed t ∧
      (∀ k : Reg, k ≤ x → t.reg k = s.readByte (s.i.toNat + k.val)) ∧
      UnchangedBut (fun p => p.closing ∨ ∃ k : Reg, k ≤ x ∧ p = .reg k) s t) ∧
    (4095 < s.i.toNat + x.val → ∃ t, exec (.ldVxMem x) s = .next t ∧
      FaultRecorded .readOutOfRange (s.pc - 2).toNat (max s.i.toNat 4096) s t)

/-- R177 (E7 of 95_test_vectors.md): storing V[0..X] and loading V[0..X] back from the same address reproduces the registers,
whatever they, and PC, were changed to in between. -/
def Obligations.LoadAfterStoreRestoresRegisters : Prop :=
  ∀ (x : Reg) (s : State) (v : Vector Byte 16) (a : Word), Memory.wf s.unlisted s.mem → s.i.toNat + x.val ≤ 4095 →
    (s.params.fontWriteProtect = true → 80 ≤ s.i.toNat) →
    ∃ t u, exec (.ldMemVx x) s = .next t ∧ exec (.ldVxMem x) { t with v := v, pc := a } = .next u ∧
      u.i = s.i ∧ ∀ k : Reg, k ≤ x → u.reg k = s.reg k

/-! ### Timers and key input (43_timers_and_input.md) -/

/-- The timer transfers, with the pairing the spec supplies from general knowledge (R193, R196, R197, decision D9; log 8): FX07
reads DT, FX15 writes DT, FX18 writes ST. -/
def Obligations.TimerTransfers : Prop :=
  ∀ x : Reg,
    WritesReg (.ldVxDt x) x (fun s => s.dt.toNat) ∧
    (∀ s : State, ∃ t, exec (.ldDtVx x) s = .next t ∧ Completed t ∧ t.dt = s.reg x ∧
      UnchangedBut (fun p => p.closing ∨ p = .dt) s t) ∧
    (∀ s : State, ∃ t, exec (.ldStVx x) s = .next t ∧ Completed t ∧ t.st = s.reg x ∧
      UnchangedBut (fun p => p.closing ∨ p = .st) s t)

/-- R191, R192 (decision D12): EX9E skips exactly when a key is pressed and its value is V[X], EXA1 exactly when not. -/
def Obligations.KeySkipsCompareTheKey : Prop :=
  ∀ x : Reg,
    WritesPc (.skp x) (fun s => skipTarget s (s.key.map BitVec.toNat = some (s.reg x).toNat)) ∧
    WritesPc (.sknp x) (fun s => skipTarget s (s.key.map BitVec.toNat ≠ some (s.reg x).toNat))

/-- R194 (decision D8; log 9): with a key pressed FX0A completes; it writes the key into V[X] where `FX0A_STORES_KEY` is true, a
store the spec supplies from general knowledge, and nothing where it is false. The key is not consumed. -/
def Obligations.KeyWaitCompletesWithAKey : Prop :=
  ∀ (x : Reg) (s : State) (k : BitVec 4), s.key = some k →
    ∃ t, exec (.ldVxK x) s = .next t ∧ Completed t ∧
      (s.params.fx0aStoresKey = true → (t.reg x).toNat = k.toNat ∧
        UnchangedBut (fun p => p.closing ∨ p = .reg x) s t) ∧
      (s.params.fx0aStoresKey = false → UnchangedBut Piece.closing s t)

/-- R194, R195, R44: with no key pressed a step at FX0A, however often it is repeated, leaves PC, V[X] and everything else as it
was, but LAST_OP, which holds its word, the closing status, which reports WAITING, and the model's count of draws (log 2);
once a key is pressed the next step advances. -/
def Obligations.KeyWaitHoldsUntilAKey : Prop :=
  ∀ (x : Reg) (s : State) (k : BitVec 4) (n : Nat), s.halted = false → s.pc.toNat ≤ 4094 →
    s.fetchInstr = some (.ldVxK x) → s.key = none →
    ∃ t, stepTimes (n + 1) s = .next t ∧ t.pc = s.pc ∧ t.waiting = true ∧ t.lastEvent = .none ∧
      t.lastOp = s.fetchWord ∧ UnchangedBut (fun p => p.closing ∨ p = .lastOp ∨ p = .rndIndex) s t ∧
      ∃ u, step (t.setKey (some k)) = .next u ∧ u.pc.toNat = s.pc.toNat + 2 ∧ u.waiting = false

/-! ### Display (44_display.md) -/

/-- R211. -/
def Obligations.ClearSetsEveryPixelToZero : Prop :=
  ∀ s : State, ∃ t, exec .cls s = .next t ∧ Completed t ∧ (∀ x y, t.pixel x y = false) ∧ t.draw = true ∧
    UnchangedBut (fun p => p.closing ∨ p = .draw ∨ ∃ x y, p = .pixel x y) s t

/-- R213, R214, R217, R218, R219 (decisions D2, D14, D15): DXYN with its rows in range flips exactly the pixels its 1 bits cover,
clipped and not wrapped, from coordinates read before VF is written; VF is 1 iff a covered pixel was set; DRAW is set. With
N ≥ 1 and a row past 4095 it raises ReadOutOfRange and draws nothing. -/
def Obligations.DrawFlipsTheCoveredPixels : Prop :=
  ∀ (x y : Reg) (n : BitVec 4) (s : State),
    (n = 0 ∨ s.i.toNat + n.toNat ≤ 4096 →
      ∃ (t : State) (covered : Fin 64 → Fin 32 → Prop),
        covered = Covers ((s.reg x).toNat % 64) ((s.reg y).toNat % 32)
          ((List.range n.toNat).map fun r => s.readByte (s.i.toNat + r)) ∧
        exec (.drw x y n) s = .next t ∧ Completed t ∧ t.draw = true ∧
        (∀ px py, covered px py → t.pixel px py = !s.pixel px py) ∧
        ((∃ px py, covered px py ∧ s.pixel px py = true) → t.reg 15 = 1) ∧
        ((¬∃ px py, covered px py ∧ s.pixel px py = true) → t.reg 15 = 0) ∧
        UnchangedBut (fun p => p.closing ∨ p = .draw ∨ p = .reg 15 ∨ ∃ px py, covered px py ∧ p = .pixel px py) s t) ∧
    (n ≠ 0 → 4096 < s.i.toNat + n.toNat → ∃ t, exec (.drw x y n) s = .next t ∧
      FaultRecorded .readOutOfRange (s.pc - 2).toNat (max s.i.toNat 4096) s t)

/-- R213, R216: drawing the same sprite twice at the same place restores the display. The second draw collides iff a covered
pixel was 0 before the first (log 19: R216's words say "at least one in-bounds set bit", which is this for pixels that
were clear). -/
def Obligations.DrawingTwiceRestoresTheDisplay : Prop :=
  ∀ (fb : Framebuffer) (x0 y0 : Nat) (rows : List Byte),
    (drawSprite (drawSprite fb x0 y0 rows).2 x0 y0 rows).2 = fb ∧
    ((drawSprite (drawSprite fb x0 y0 rows).2 x0 y0 rows).1 = true ↔
      ∃ px py, Covers x0 y0 rows px py ∧ fb.pixel px py = false)

/-! ### Reset, load, frames and the read ports (70_reset_and_hazards.md, 10_state.md) -/

/-- R48, R260 (KEY, LAST_OP, STATUS and the fault registers: the spec's decisions D12, D19): the power-on values, of
`State.reset` and after a power-on reset of any state. -/
def Obligations.PowerOnLeavesTheSpecValues : Prop :=
  PowerOnValues State.reset ∧
  ∀ s : State, ∃ t, act .powerOnReset s = .next t ∧ PowerOnValues t ∧ t.params = s.params

/-- R261 (decisions D19, D36): after a soft reset MEM[0..0x1FF] and KEY are unchanged, the program region is 0, and all else is
as after power-on. -/
def Obligations.SoftResetKeepsLowMemoryAndKey : Prop :=
  ∀ s : State, ∃ t, act .softReset s = .next t ∧
    (∀ a, a < 0x200 → t.readByte a = s.readByte a) ∧ (∀ a, 0x200 ≤ a → t.readByte a = 0) ∧
    t.key = s.key ∧ (∀ k, t.reg k = 0) ∧ t.i = 0 ∧ t.pc = 0x200 ∧ t.sp = 0 ∧ (∀ k : Fin 16, t.stack[k] = 0) ∧
    t.dt = 0 ∧ t.st = 0 ∧ (∀ x y, t.pixel x y = false) ∧ t.lastOp = 0 ∧ t.halted = false ∧ t.draw = false ∧
    t.waiting = false ∧ t.lastEvent = .none ∧ t.faultCode = .none ∧ t.faultPc = 0 ∧ t.faultAddr = 0

/-- R264 (decision D18): LOAD of at most 3584 bytes puts them at 0x200 on, is accepted and changes nothing else; a longer image
is rejected and changes nothing. -/
def Obligations.LoadWritesTheProgramRegion : Prop :=
  ∀ (bytes : List Byte) (s : State), Memory.wf s.unlisted s.mem →
    (bytes.length ≤ 3584 → ∃ t, act (.load bytes) s = .next t ∧ reply (.load bytes) t = .loaded true ∧
      (∀ k (h : k < bytes.length), t.readByte (0x200 + k) = bytes[k]) ∧
      UnchangedBut (Piece.inRange 0x200 bytes.length) s t) ∧
    (3584 < bytes.length → act (.load bytes) s = .next s ∧ reply (.load bytes) s = .loaded false)

/-- R266, R110, R53 (decisions D14, D24, D31, D35): a frame issues `FRAME_BUDGET` step requests, each of which reports one event,
the last of them latched; that it always answers rests on log 3 and log 4. On a halted core every request is refused: the
frame clears DRAW, changes nothing else but LAST_EVENT, and reports that no redraw is needed. -/
def Obligations.FrameOfAHaltedCoreRefusesItsRequests : Prop :=
  ∀ s : State,
    (∃ t, act .frame s = .next t ∧ (actEvents .frame s).length = s.params.frameBudget ∧
      (1 ≤ s.params.frameBudget → (actEvents .frame s).getLast? = some t.lastEvent)) ∧
    (s.halted = true → ∃ t, act .frame s = .next t ∧ reply .frame t = .redrawNeeded false ∧
      actEvents .frame s = List.replicate s.params.frameBudget .refused ∧
      (1 ≤ s.params.frameBudget → t.lastEvent = .refused) ∧
      UnchangedBut (fun p => p = .draw ∨ p = .lastEvent) s t)

/-- R268 (an inference the spec marks as its own, from R95 and R266): a frame over memory that holds zeros from PC on leaves every
register, I, the display and the rest unchanged, except that PC advances by twice the budget, and reports one DECODE_ERROR for
each request. -/
def Obligations.FrameOverZerosOnlyAdvancesPc : Prop :=
  ∀ s : State, s.halted = false → s.pc.toNat + 2 * s.params.frameBudget ≤ 4096 →
    (∀ a, s.pc.toNat ≤ a → a < s.pc.toNat + 2 * s.params.frameBudget → s.readByte a = 0) →
    ∃ t, act .frame s = .next t ∧ reply .frame t = .redrawNeeded false ∧
      actEvents .frame s = List.replicate s.params.frameBudget .decodeError ∧
      t.pc.toNat = s.pc.toNat + 2 * s.params.frameBudget ∧
      UnchangedBut (fun p => p.closing ∨ p = .pc ∨ p = .lastOp ∨ p = .draw ∨ p = .rndIndex) s t

/-- R46, R53, R38 (decisions D4, D31): the STATUS byte, with the codes of LAST_EVENT, and the codes of FAULT_CODE. -/
def Obligations.StatusByteHasItsLayout : Prop :=
  (∀ s : State, s.statusWord.toNat =
    (if s.halted then 1 else 0) + (if s.draw then 2 else 0) + (if s.waiting then 4 else 0) +
      8 * (eventBits s.lastEvent).toNat) ∧
  (eventBits .none = 0 ∧ eventBits .decodeError = 1 ∧ eventBits .fault = 2 ∧ eventBits .refused = 3) ∧
  (faultCodeBits .none = 0 ∧ faultCodeBits .stackOverflow = 1 ∧ faultCodeBits .stackUnderflow = 2 ∧
    faultCodeBits .fetchOutOfRange = 3 ∧ faultCodeBits .readOutOfRange = 4 ∧ faultCodeBits .writeOutOfRange = 5)
end

