-- ==== Sys2Proof/Laws/Encoding.lean ====
section
/-! SUPPORT. The fields of a packed word, and a word packed from its own fields (30_encoding.md R81, R98). -/

namespace Sys2Proof

/-! ### Fields as numbers -/

theorem familyField_toNat (w : Word) : (familyField w).toNat = w.toNat / 4096 := by
  have := w.isLt
  simp only [familyField, BitVec.extractLsb'_toNat, Nat.shiftRight_eq_div_pow]
  omega

theorem xField_toNat (w : Word) : (xField w).toNat = w.toNat / 256 % 16 := by
  simp [xField, BitVec.extractLsb'_toNat, Nat.shiftRight_eq_div_pow]

theorem yField_toNat (w : Word) : (yField w).toNat = w.toNat / 16 % 16 := by
  simp [yField, BitVec.extractLsb'_toNat, Nat.shiftRight_eq_div_pow]

theorem nField_toNat (w : Word) : (nField w).toNat = w.toNat % 16 := by
  simp [nField, BitVec.extractLsb'_toNat]

theorem nnField_toNat (w : Word) : (nnField w).toNat = w.toNat % 256 := by
  simp [nnField, BitVec.extractLsb'_toNat]

theorem nnnField_toNat (w : Word) : (nnnField w).toNat = w.toNat % 4096 := by
  simp [nnnField, BitVec.extractLsb'_toNat]

theorem regOf_val (f : BitVec 4) : (regOf f).val = f.toNat := rfl

/-! ### Packed words as numbers -/

theorem packNnn_toNat (f : BitVec 4) (nnn : BitVec 12) : (packNnn f nnn).toNat = f.toNat * 4096 + nnn.toNat := by
  have := nnn.isLt
  rw [packNnn, BitVec.toNat_append, ← Nat.shiftLeft_add_eq_or_of_lt (by omega), Nat.shiftLeft_eq]

theorem packXnn_toNat (f : BitVec 4) (x : Reg) (nn : BitVec 8) :
    (packXnn f x nn).toNat = f.toNat * 4096 + x.val * 256 + nn.toNat := by
  have h1 := nn.isLt
  have h2 := x.isLt
  rw [packXnn, BitVec.toNat_append, ← Nat.shiftLeft_add_eq_or_of_lt (by omega), BitVec.toNat_append,
    ← Nat.shiftLeft_add_eq_or_of_lt (BitVec.isLt _), Nat.shiftLeft_eq, Nat.shiftLeft_eq]
  simp only [BitVec.toNat_ofFin]
  omega

theorem packXyn_toNat (f : BitVec 4) (x y : Reg) (n : BitVec 4) :
    (packXyn f x y n).toNat = f.toNat * 4096 + x.val * 256 + y.val * 16 + n.toNat := by
  have h1 := n.isLt
  have h2 := x.isLt
  have h3 := y.isLt
  rw [packXyn, BitVec.toNat_append, ← Nat.shiftLeft_add_eq_or_of_lt (by omega), BitVec.toNat_append,
    ← Nat.shiftLeft_add_eq_or_of_lt (BitVec.isLt _), BitVec.toNat_append,
    ← Nat.shiftLeft_add_eq_or_of_lt (BitVec.isLt _), Nat.shiftLeft_eq, Nat.shiftLeft_eq, Nat.shiftLeft_eq]
  simp only [BitVec.toNat_ofFin]
  omega

/-! ### Fields of packed words -/

theorem fields_packNnn (f : BitVec 4) (nnn : BitVec 12) :
    familyField (packNnn f nnn) = f ∧ nnnField (packNnn f nnn) = nnn := by
  have := nnn.isLt
  constructor <;> apply BitVec.eq_of_toNat_eq
  · rw [familyField_toNat, packNnn_toNat]
    omega
  · rw [nnnField_toNat, packNnn_toNat]
    omega

theorem fields_packXnn (f : BitVec 4) (x : Reg) (nn : BitVec 8) :
    familyField (packXnn f x nn) = f ∧ regOf (xField (packXnn f x nn)) = x ∧ nnField (packXnn f x nn) = nn := by
  have h1 := nn.isLt
  have h2 := x.isLt
  refine ⟨BitVec.eq_of_toNat_eq ?_, Fin.eq_of_val_eq ?_, BitVec.eq_of_toNat_eq ?_⟩
  · rw [familyField_toNat, packXnn_toNat]
    omega
  · rw [regOf_val, xField_toNat, packXnn_toNat]
    omega
  · rw [nnField_toNat, packXnn_toNat]
    omega

theorem fields_packXyn (f : BitVec 4) (x y : Reg) (n : BitVec 4) :
    familyField (packXyn f x y n) = f ∧ regOf (xField (packXyn f x y n)) = x ∧
      regOf (yField (packXyn f x y n)) = y ∧ nField (packXyn f x y n) = n := by
  have h1 := n.isLt
  have h2 := x.isLt
  have h3 := y.isLt
  refine ⟨BitVec.eq_of_toNat_eq ?_, Fin.eq_of_val_eq ?_, Fin.eq_of_val_eq ?_, BitVec.eq_of_toNat_eq ?_⟩
  · rw [familyField_toNat, packXyn_toNat]
    omega
  · rw [regOf_val, xField_toNat, packXyn_toNat]
    omega
  · rw [regOf_val, yField_toNat, packXyn_toNat]
    omega
  · rw [nField_toNat, packXyn_toNat]
    omega

/-! ### A word packed from its own fields -/

theorem packNnn_fields {w : Word} {f : BitVec 4} (h : familyField w = f) : packNnn f (nnnField w) = w := by
  subst h
  apply BitVec.eq_of_toNat_eq
  rw [packNnn_toNat, familyField_toNat, nnnField_toNat]
  omega

theorem packXnn_fields {w : Word} {f : BitVec 4} {nn : BitVec 8} (h : familyField w = f) (hn : nnField w = nn) :
    packXnn f (regOf (xField w)) nn = w := by
  subst h hn
  apply BitVec.eq_of_toNat_eq
  rw [packXnn_toNat, familyField_toNat, nnField_toNat, regOf_val, xField_toNat]
  omega

theorem packXyn_fields {w : Word} {f : BitVec 4} {n : BitVec 4} (h : familyField w = f) (hn : nField w = n) :
    packXyn f (regOf (xField w)) (regOf (yField w)) n = w := by
  subst h hn
  apply BitVec.eq_of_toNat_eq
  rw [packXyn_toNat, familyField_toNat, nField_toNat, regOf_val, regOf_val, xField_toNat, yField_toNat]
  omega

/-! ### The word of a fetch (R62) -/

theorem wordOfBytes_toNat (hi lo : Byte) : (wordOfBytes hi lo).toNat = hi.toNat * 256 + lo.toNat := by
  have := lo.isLt
  rw [wordOfBytes, BitVec.toNat_append, ← Nat.shiftLeft_add_eq_or_of_lt (by omega), Nat.shiftLeft_eq]

/-- A word laid out as its two bytes reads back. -/
theorem wordOfBytes_bytes (w : Word) : wordOfBytes (highByte w) (lowByte w) = w := by
  apply BitVec.eq_of_toNat_eq
  have := w.isLt
  rw [wordOfBytes_toNat]
  simp only [highByte, lowByte, BitVec.extractLsb'_toNat, Nat.shiftRight_eq_div_pow]
  omega

end Sys2Proof
end

