-- ==== Sys2Proof/Laws/Decode.lean ====
section
/-! SUPPORT. Which words each kind has (30_encoding.md R86 to R95): the decoder's case split, said once. -/

namespace Sys2Proof

/-- The words of each kind, by their fixed nibbles; for UNRECOGNIZED, the holes of the opcode map (R88, R91 to R95). -/
def kindWords (strict59 : Bool) (w : Word) : OpKind → Prop
  | .unrecognized =>
    (familyField w = 0x0 ∧ w ≠ 0x00E0 ∧ w ≠ 0x00EE) ∨
    ((familyField w = 0x5 ∨ familyField w = 0x9) ∧ nibbleOk strict59 (nField w) = false) ∨
    (familyField w = 0x8 ∧ 7 < (nField w).toNat ∧ (nField w).toNat ≠ 0xE) ∨
    (familyField w = 0xE ∧ nnField w ≠ 0x9E ∧ nnField w ≠ 0xA1) ∨
    (familyField w = 0xF ∧ nnField w ≠ 0x07 ∧ nnField w ≠ 0x0A ∧ nnField w ≠ 0x15 ∧ nnField w ≠ 0x18 ∧
      nnField w ≠ 0x1E ∧ nnField w ≠ 0x29 ∧ nnField w ≠ 0x33 ∧ nnField w ≠ 0x55 ∧ nnField w ≠ 0x65)
  | .cls => w = 0x00E0
  | .ret => w = 0x00EE
  | .jp => familyField w = 0x1
  | .call => familyField w = 0x2
  | .seVxNn => familyField w = 0x3
  | .sneVxNn => familyField w = 0x4
  | .seVxVy => familyField w = 0x5 ∧ nibbleOk strict59 (nField w) = true
  | .ldVxNn => familyField w = 0x6
  | .addVxNn => familyField w = 0x7
  | .ldVxVy => familyField w = 0x8 ∧ nField w = 0x0
  | .or => familyField w = 0x8 ∧ nField w = 0x1
  | .and => familyField w = 0x8 ∧ nField w = 0x2
  | .xor => familyField w = 0x8 ∧ nField w = 0x3
  | .addVxVy => familyField w = 0x8 ∧ nField w = 0x4
  | .sub => familyField w = 0x8 ∧ nField w = 0x5
  | .shr => familyField w = 0x8 ∧ nField w = 0x6
  | .subn => familyField w = 0x8 ∧ nField w = 0x7
  | .shl => familyField w = 0x8 ∧ nField w = 0xE
  | .sneVxVy => familyField w = 0x9 ∧ nibbleOk strict59 (nField w) = true
  | .ldI => familyField w = 0xA
  | .jpV0 => familyField w = 0xB
  | .rnd => familyField w = 0xC
  | .drw => familyField w = 0xD
  | .skp => familyField w = 0xE ∧ nnField w = 0x9E
  | .sknp => familyField w = 0xE ∧ nnField w = 0xA1
  | .ldVxDt => familyField w = 0xF ∧ nnField w = 0x07
  | .ldVxK => familyField w = 0xF ∧ nnField w = 0x0A
  | .ldDtVx => familyField w = 0xF ∧ nnField w = 0x15
  | .ldStVx => familyField w = 0xF ∧ nnField w = 0x18
  | .addIVx => familyField w = 0xF ∧ nnField w = 0x1E
  | .ldFVx => familyField w = 0xF ∧ nnField w = 0x29
  | .ldBVx => familyField w = 0xF ∧ nnField w = 0x33
  | .ldMemVx => familyField w = 0xF ∧ nnField w = 0x55
  | .ldVxMem => familyField w = 0xF ∧ nnField w = 0x65

/-- A 4-bit field from its value. -/
theorem nibble_eq {f : BitVec 4} {n : Nat} (h : f.toNat = n) : f = BitVec.ofNat 4 n :=
  BitVec.eq_of_toNat_eq (by rw [BitVec.toNat_ofNat, ← h, Nat.mod_eq_of_lt f.isLt])

theorem kind0_words {strict : Bool} {w : Word} (h : familyField w = 0x0) : kindWords strict w (kind0 w) := by
  unfold kind0
  split
  · exact ‹_›
  · split
    · exact ‹_›
    · exact .inl ⟨h, ‹_›, ‹_›⟩

theorem kind8_words {strict : Bool} {w : Word} (h : familyField w = 0x8) : kindWords strict w (kind8 w) := by
  unfold kind8
  split
  iterate 9 · exact ⟨h, nibble_eq ‹_›⟩
  simp only [imp_false] at *
  exact .inr (.inr (.inl ⟨h, by have := (nField w).isLt; omega, by omega⟩))

theorem kindE_words {strict : Bool} {w : Word} (h : familyField w = 0xE) : kindWords strict w (kindE w) := by
  unfold kindE
  split
  · exact ⟨h, ‹_›⟩
  · split
    · exact ⟨h, ‹_›⟩
    · exact .inr (.inr (.inr (.inl ⟨h, ‹_›, ‹_›⟩)))

theorem kindF_words {strict : Bool} {w : Word} (h : familyField w = 0xF) : kindWords strict w (kindF w) := by
  unfold kindF
  repeat'
    split
    · exact ⟨h, ‹_›⟩
  exact .inr (.inr (.inr (.inr ⟨h, ‹_›, ‹_›, ‹_›, ‹_›, ‹_›, ‹_›, ‹_›, ‹_›, ‹_›⟩)))

/-- Every word is a word of the kind the decoder gives it (R87). -/
theorem kindOf_words (strict : Bool) (w : Word) : kindWords strict w (kindOf strict w) := by
  unfold kindOf
  split
  any_goals first | exact nibble_eq ‹_› | skip
  · exact kind0_words (nibble_eq ‹_›)
  · unfold kind59
    split
    · exact ⟨nibble_eq ‹_›, ‹_›⟩
    · exact .inr (.inl ⟨.inl (nibble_eq ‹_›), by simpa using ‹¬nibbleOk strict (nField w) = true›⟩)
  · exact kind8_words (nibble_eq ‹_›)
  · unfold kind59
    split
    · exact ⟨nibble_eq ‹_›, ‹_›⟩
    · exact .inr (.inl ⟨.inr (nibble_eq ‹_›), by simpa using ‹¬nibbleOk strict (nField w) = true›⟩)
  · exact kindE_words (nibble_eq ‹_›)
  · refine kindF_words (nibble_eq (n := 15) ?_)
    have := (familyField w).isLt
    simp only [imp_false] at *
    omega

/-- A word decodes to no instruction exactly when its kind is UNRECOGNIZED (R95). -/
theorem decode_none {strict : Bool} {w : Word} : decode strict w = none ↔ kindOf strict w = .unrecognized := by
  simp only [decode, Op.instr, decodeOp]
  split <;> simp_all

end Sys2Proof
end

