-- ==== Sys2Proof/Laws/State.lean ====
section
/-! SUPPORT. One lemma per field per update of the state, true by rfl, so that no proof unfolds a record update; the derived
updates rewrite to those. -/

namespace Sys2Proof.Machine

variable (s : State)

/-! ### setReg -/

@[simp] theorem State.setReg_params (k : Reg) (b : Byte) : (s.setReg k b).params = s.params := rfl
@[simp] theorem State.setReg_mem (k : Reg) (b : Byte) : (s.setReg k b).mem = s.mem := rfl
@[simp] theorem State.setReg_v (k : Reg) (b : Byte) : (s.setReg k b).v = s.v.set k b := rfl
@[simp] theorem State.setReg_pc (k : Reg) (b : Byte) : (s.setReg k b).pc = s.pc := rfl
@[simp] theorem State.setReg_i (k : Reg) (b : Byte) : (s.setReg k b).i = s.i := rfl
@[simp] theorem State.setReg_stack (k : Reg) (b : Byte) : (s.setReg k b).stack = s.stack := rfl
@[simp] theorem State.setReg_sp (k : Reg) (b : Byte) : (s.setReg k b).sp = s.sp := rfl
@[simp] theorem State.setReg_dt (k : Reg) (b : Byte) : (s.setReg k b).dt = s.dt := rfl
@[simp] theorem State.setReg_st (k : Reg) (b : Byte) : (s.setReg k b).st = s.st := rfl
@[simp] theorem State.setReg_fb (k : Reg) (b : Byte) : (s.setReg k b).fb = s.fb := rfl
@[simp] theorem State.setReg_key (k : Reg) (b : Byte) : (s.setReg k b).key = s.key := rfl
@[simp] theorem State.setReg_lastOp (k : Reg) (b : Byte) : (s.setReg k b).lastOp = s.lastOp := rfl
@[simp] theorem State.setReg_halted (k : Reg) (b : Byte) : (s.setReg k b).halted = s.halted := rfl
@[simp] theorem State.setReg_draw (k : Reg) (b : Byte) : (s.setReg k b).draw = s.draw := rfl
@[simp] theorem State.setReg_waiting (k : Reg) (b : Byte) : (s.setReg k b).waiting = s.waiting := rfl
@[simp] theorem State.setReg_lastEvent (k : Reg) (b : Byte) : (s.setReg k b).lastEvent = s.lastEvent := rfl
@[simp] theorem State.setReg_faultCode (k : Reg) (b : Byte) : (s.setReg k b).faultCode = s.faultCode := rfl
@[simp] theorem State.setReg_faultPc (k : Reg) (b : Byte) : (s.setReg k b).faultPc = s.faultPc := rfl
@[simp] theorem State.setReg_faultAddr (k : Reg) (b : Byte) : (s.setReg k b).faultAddr = s.faultAddr := rfl
@[simp] theorem State.setReg_rndIndex (k : Reg) (b : Byte) : (s.setReg k b).rndIndex = s.rndIndex := rfl

/-! ### setPc -/

@[simp] theorem State.setPc_params (a : Word) : (s.setPc a).params = s.params := rfl
@[simp] theorem State.setPc_mem (a : Word) : (s.setPc a).mem = s.mem := rfl
@[simp] theorem State.setPc_v (a : Word) : (s.setPc a).v = s.v := rfl
@[simp] theorem State.setPc_pc (a : Word) : (s.setPc a).pc = a := rfl
@[simp] theorem State.setPc_i (a : Word) : (s.setPc a).i = s.i := rfl
@[simp] theorem State.setPc_stack (a : Word) : (s.setPc a).stack = s.stack := rfl
@[simp] theorem State.setPc_sp (a : Word) : (s.setPc a).sp = s.sp := rfl
@[simp] theorem State.setPc_dt (a : Word) : (s.setPc a).dt = s.dt := rfl
@[simp] theorem State.setPc_st (a : Word) : (s.setPc a).st = s.st := rfl
@[simp] theorem State.setPc_fb (a : Word) : (s.setPc a).fb = s.fb := rfl
@[simp] theorem State.setPc_key (a : Word) : (s.setPc a).key = s.key := rfl
@[simp] theorem State.setPc_lastOp (a : Word) : (s.setPc a).lastOp = s.lastOp := rfl
@[simp] theorem State.setPc_halted (a : Word) : (s.setPc a).halted = s.halted := rfl
@[simp] theorem State.setPc_draw (a : Word) : (s.setPc a).draw = s.draw := rfl
@[simp] theorem State.setPc_waiting (a : Word) : (s.setPc a).waiting = s.waiting := rfl
@[simp] theorem State.setPc_lastEvent (a : Word) : (s.setPc a).lastEvent = s.lastEvent := rfl
@[simp] theorem State.setPc_faultCode (a : Word) : (s.setPc a).faultCode = s.faultCode := rfl
@[simp] theorem State.setPc_faultPc (a : Word) : (s.setPc a).faultPc = s.faultPc := rfl
@[simp] theorem State.setPc_faultAddr (a : Word) : (s.setPc a).faultAddr = s.faultAddr := rfl
@[simp] theorem State.setPc_rndIndex (a : Word) : (s.setPc a).rndIndex = s.rndIndex := rfl

/-! ### setI -/

@[simp] theorem State.setI_params (a : Word) : (s.setI a).params = s.params := rfl
@[simp] theorem State.setI_mem (a : Word) : (s.setI a).mem = s.mem := rfl
@[simp] theorem State.setI_v (a : Word) : (s.setI a).v = s.v := rfl
@[simp] theorem State.setI_pc (a : Word) : (s.setI a).pc = s.pc := rfl
@[simp] theorem State.setI_i (a : Word) : (s.setI a).i = a := rfl
@[simp] theorem State.setI_stack (a : Word) : (s.setI a).stack = s.stack := rfl
@[simp] theorem State.setI_sp (a : Word) : (s.setI a).sp = s.sp := rfl
@[simp] theorem State.setI_dt (a : Word) : (s.setI a).dt = s.dt := rfl
@[simp] theorem State.setI_st (a : Word) : (s.setI a).st = s.st := rfl
@[simp] theorem State.setI_fb (a : Word) : (s.setI a).fb = s.fb := rfl
@[simp] theorem State.setI_key (a : Word) : (s.setI a).key = s.key := rfl
@[simp] theorem State.setI_lastOp (a : Word) : (s.setI a).lastOp = s.lastOp := rfl
@[simp] theorem State.setI_halted (a : Word) : (s.setI a).halted = s.halted := rfl
@[simp] theorem State.setI_draw (a : Word) : (s.setI a).draw = s.draw := rfl
@[simp] theorem State.setI_waiting (a : Word) : (s.setI a).waiting = s.waiting := rfl
@[simp] theorem State.setI_lastEvent (a : Word) : (s.setI a).lastEvent = s.lastEvent := rfl
@[simp] theorem State.setI_faultCode (a : Word) : (s.setI a).faultCode = s.faultCode := rfl
@[simp] theorem State.setI_faultPc (a : Word) : (s.setI a).faultPc = s.faultPc := rfl
@[simp] theorem State.setI_faultAddr (a : Word) : (s.setI a).faultAddr = s.faultAddr := rfl
@[simp] theorem State.setI_rndIndex (a : Word) : (s.setI a).rndIndex = s.rndIndex := rfl

/-! ### setDt -/

@[simp] theorem State.setDt_params (b : Byte) : (s.setDt b).params = s.params := rfl
@[simp] theorem State.setDt_mem (b : Byte) : (s.setDt b).mem = s.mem := rfl
@[simp] theorem State.setDt_v (b : Byte) : (s.setDt b).v = s.v := rfl
@[simp] theorem State.setDt_pc (b : Byte) : (s.setDt b).pc = s.pc := rfl
@[simp] theorem State.setDt_i (b : Byte) : (s.setDt b).i = s.i := rfl
@[simp] theorem State.setDt_stack (b : Byte) : (s.setDt b).stack = s.stack := rfl
@[simp] theorem State.setDt_sp (b : Byte) : (s.setDt b).sp = s.sp := rfl
@[simp] theorem State.setDt_dt (b : Byte) : (s.setDt b).dt = b := rfl
@[simp] theorem State.setDt_st (b : Byte) : (s.setDt b).st = s.st := rfl
@[simp] theorem State.setDt_fb (b : Byte) : (s.setDt b).fb = s.fb := rfl
@[simp] theorem State.setDt_key (b : Byte) : (s.setDt b).key = s.key := rfl
@[simp] theorem State.setDt_lastOp (b : Byte) : (s.setDt b).lastOp = s.lastOp := rfl
@[simp] theorem State.setDt_halted (b : Byte) : (s.setDt b).halted = s.halted := rfl
@[simp] theorem State.setDt_draw (b : Byte) : (s.setDt b).draw = s.draw := rfl
@[simp] theorem State.setDt_waiting (b : Byte) : (s.setDt b).waiting = s.waiting := rfl
@[simp] theorem State.setDt_lastEvent (b : Byte) : (s.setDt b).lastEvent = s.lastEvent := rfl
@[simp] theorem State.setDt_faultCode (b : Byte) : (s.setDt b).faultCode = s.faultCode := rfl
@[simp] theorem State.setDt_faultPc (b : Byte) : (s.setDt b).faultPc = s.faultPc := rfl
@[simp] theorem State.setDt_faultAddr (b : Byte) : (s.setDt b).faultAddr = s.faultAddr := rfl
@[simp] theorem State.setDt_rndIndex (b : Byte) : (s.setDt b).rndIndex = s.rndIndex := rfl

/-! ### setSt -/

@[simp] theorem State.setSt_params (b : Byte) : (s.setSt b).params = s.params := rfl
@[simp] theorem State.setSt_mem (b : Byte) : (s.setSt b).mem = s.mem := rfl
@[simp] theorem State.setSt_v (b : Byte) : (s.setSt b).v = s.v := rfl
@[simp] theorem State.setSt_pc (b : Byte) : (s.setSt b).pc = s.pc := rfl
@[simp] theorem State.setSt_i (b : Byte) : (s.setSt b).i = s.i := rfl
@[simp] theorem State.setSt_stack (b : Byte) : (s.setSt b).stack = s.stack := rfl
@[simp] theorem State.setSt_sp (b : Byte) : (s.setSt b).sp = s.sp := rfl
@[simp] theorem State.setSt_dt (b : Byte) : (s.setSt b).dt = s.dt := rfl
@[simp] theorem State.setSt_st (b : Byte) : (s.setSt b).st = b := rfl
@[simp] theorem State.setSt_fb (b : Byte) : (s.setSt b).fb = s.fb := rfl
@[simp] theorem State.setSt_key (b : Byte) : (s.setSt b).key = s.key := rfl
@[simp] theorem State.setSt_lastOp (b : Byte) : (s.setSt b).lastOp = s.lastOp := rfl
@[simp] theorem State.setSt_halted (b : Byte) : (s.setSt b).halted = s.halted := rfl
@[simp] theorem State.setSt_draw (b : Byte) : (s.setSt b).draw = s.draw := rfl
@[simp] theorem State.setSt_waiting (b : Byte) : (s.setSt b).waiting = s.waiting := rfl
@[simp] theorem State.setSt_lastEvent (b : Byte) : (s.setSt b).lastEvent = s.lastEvent := rfl
@[simp] theorem State.setSt_faultCode (b : Byte) : (s.setSt b).faultCode = s.faultCode := rfl
@[simp] theorem State.setSt_faultPc (b : Byte) : (s.setSt b).faultPc = s.faultPc := rfl
@[simp] theorem State.setSt_faultAddr (b : Byte) : (s.setSt b).faultAddr = s.faultAddr := rfl
@[simp] theorem State.setSt_rndIndex (b : Byte) : (s.setSt b).rndIndex = s.rndIndex := rfl

/-! ### setMem -/

@[simp] theorem State.setMem_params (m : Memory) : (s.setMem m).params = s.params := rfl
@[simp] theorem State.setMem_mem (m : Memory) : (s.setMem m).mem = m := rfl
@[simp] theorem State.setMem_v (m : Memory) : (s.setMem m).v = s.v := rfl
@[simp] theorem State.setMem_pc (m : Memory) : (s.setMem m).pc = s.pc := rfl
@[simp] theorem State.setMem_i (m : Memory) : (s.setMem m).i = s.i := rfl
@[simp] theorem State.setMem_stack (m : Memory) : (s.setMem m).stack = s.stack := rfl
@[simp] theorem State.setMem_sp (m : Memory) : (s.setMem m).sp = s.sp := rfl
@[simp] theorem State.setMem_dt (m : Memory) : (s.setMem m).dt = s.dt := rfl
@[simp] theorem State.setMem_st (m : Memory) : (s.setMem m).st = s.st := rfl
@[simp] theorem State.setMem_fb (m : Memory) : (s.setMem m).fb = s.fb := rfl
@[simp] theorem State.setMem_key (m : Memory) : (s.setMem m).key = s.key := rfl
@[simp] theorem State.setMem_lastOp (m : Memory) : (s.setMem m).lastOp = s.lastOp := rfl
@[simp] theorem State.setMem_halted (m : Memory) : (s.setMem m).halted = s.halted := rfl
@[simp] theorem State.setMem_draw (m : Memory) : (s.setMem m).draw = s.draw := rfl
@[simp] theorem State.setMem_waiting (m : Memory) : (s.setMem m).waiting = s.waiting := rfl
@[simp] theorem State.setMem_lastEvent (m : Memory) : (s.setMem m).lastEvent = s.lastEvent := rfl
@[simp] theorem State.setMem_faultCode (m : Memory) : (s.setMem m).faultCode = s.faultCode := rfl
@[simp] theorem State.setMem_faultPc (m : Memory) : (s.setMem m).faultPc = s.faultPc := rfl
@[simp] theorem State.setMem_faultAddr (m : Memory) : (s.setMem m).faultAddr = s.faultAddr := rfl
@[simp] theorem State.setMem_rndIndex (m : Memory) : (s.setMem m).rndIndex = s.rndIndex := rfl

/-! ### redraw -/

@[simp] theorem State.redraw_params (fb : Framebuffer) : (s.redraw fb).params = s.params := rfl
@[simp] theorem State.redraw_mem (fb : Framebuffer) : (s.redraw fb).mem = s.mem := rfl
@[simp] theorem State.redraw_v (fb : Framebuffer) : (s.redraw fb).v = s.v := rfl
@[simp] theorem State.redraw_pc (fb : Framebuffer) : (s.redraw fb).pc = s.pc := rfl
@[simp] theorem State.redraw_i (fb : Framebuffer) : (s.redraw fb).i = s.i := rfl
@[simp] theorem State.redraw_stack (fb : Framebuffer) : (s.redraw fb).stack = s.stack := rfl
@[simp] theorem State.redraw_sp (fb : Framebuffer) : (s.redraw fb).sp = s.sp := rfl
@[simp] theorem State.redraw_dt (fb : Framebuffer) : (s.redraw fb).dt = s.dt := rfl
@[simp] theorem State.redraw_st (fb : Framebuffer) : (s.redraw fb).st = s.st := rfl
@[simp] theorem State.redraw_fb (fb : Framebuffer) : (s.redraw fb).fb = fb := rfl
@[simp] theorem State.redraw_key (fb : Framebuffer) : (s.redraw fb).key = s.key := rfl
@[simp] theorem State.redraw_lastOp (fb : Framebuffer) : (s.redraw fb).lastOp = s.lastOp := rfl
@[simp] theorem State.redraw_halted (fb : Framebuffer) : (s.redraw fb).halted = s.halted := rfl
@[simp] theorem State.redraw_draw (fb : Framebuffer) : (s.redraw fb).draw = true := rfl
@[simp] theorem State.redraw_waiting (fb : Framebuffer) : (s.redraw fb).waiting = s.waiting := rfl
@[simp] theorem State.redraw_lastEvent (fb : Framebuffer) : (s.redraw fb).lastEvent = s.lastEvent := rfl
@[simp] theorem State.redraw_faultCode (fb : Framebuffer) : (s.redraw fb).faultCode = s.faultCode := rfl
@[simp] theorem State.redraw_faultPc (fb : Framebuffer) : (s.redraw fb).faultPc = s.faultPc := rfl
@[simp] theorem State.redraw_faultAddr (fb : Framebuffer) : (s.redraw fb).faultAddr = s.faultAddr := rfl
@[simp] theorem State.redraw_rndIndex (fb : Framebuffer) : (s.redraw fb).rndIndex = s.rndIndex := rfl

/-! ### setStack -/

@[simp] theorem State.setStack_params (k : Vector Word 16) (n : Fin 17) : (s.setStack k n).params = s.params := rfl
@[simp] theorem State.setStack_mem (k : Vector Word 16) (n : Fin 17) : (s.setStack k n).mem = s.mem := rfl
@[simp] theorem State.setStack_v (k : Vector Word 16) (n : Fin 17) : (s.setStack k n).v = s.v := rfl
@[simp] theorem State.setStack_pc (k : Vector Word 16) (n : Fin 17) : (s.setStack k n).pc = s.pc := rfl
@[simp] theorem State.setStack_i (k : Vector Word 16) (n : Fin 17) : (s.setStack k n).i = s.i := rfl
@[simp] theorem State.setStack_stack (k : Vector Word 16) (n : Fin 17) : (s.setStack k n).stack = k := rfl
@[simp] theorem State.setStack_sp (k : Vector Word 16) (n : Fin 17) : (s.setStack k n).sp = n := rfl
@[simp] theorem State.setStack_dt (k : Vector Word 16) (n : Fin 17) : (s.setStack k n).dt = s.dt := rfl
@[simp] theorem State.setStack_st (k : Vector Word 16) (n : Fin 17) : (s.setStack k n).st = s.st := rfl
@[simp] theorem State.setStack_fb (k : Vector Word 16) (n : Fin 17) : (s.setStack k n).fb = s.fb := rfl
@[simp] theorem State.setStack_key (k : Vector Word 16) (n : Fin 17) : (s.setStack k n).key = s.key := rfl
@[simp] theorem State.setStack_lastOp (k : Vector Word 16) (n : Fin 17) : (s.setStack k n).lastOp = s.lastOp := rfl
@[simp] theorem State.setStack_halted (k : Vector Word 16) (n : Fin 17) : (s.setStack k n).halted = s.halted := rfl
@[simp] theorem State.setStack_draw (k : Vector Word 16) (n : Fin 17) : (s.setStack k n).draw = s.draw := rfl
@[simp] theorem State.setStack_waiting (k : Vector Word 16) (n : Fin 17) : (s.setStack k n).waiting = s.waiting := rfl
@[simp] theorem State.setStack_lastEvent (k : Vector Word 16) (n : Fin 17) : (s.setStack k n).lastEvent = s.lastEvent := rfl
@[simp] theorem State.setStack_faultCode (k : Vector Word 16) (n : Fin 17) : (s.setStack k n).faultCode = s.faultCode := rfl
@[simp] theorem State.setStack_faultPc (k : Vector Word 16) (n : Fin 17) : (s.setStack k n).faultPc = s.faultPc := rfl
@[simp] theorem State.setStack_faultAddr (k : Vector Word 16) (n : Fin 17) : (s.setStack k n).faultAddr = s.faultAddr := rfl
@[simp] theorem State.setStack_rndIndex (k : Vector Word 16) (n : Fin 17) : (s.setStack k n).rndIndex = s.rndIndex := rfl

/-! ### complete -/

@[simp] theorem State.complete_params : s.complete.params = s.params := rfl
@[simp] theorem State.complete_mem : s.complete.mem = s.mem := rfl
@[simp] theorem State.complete_v : s.complete.v = s.v := rfl
@[simp] theorem State.complete_pc : s.complete.pc = s.pc := rfl
@[simp] theorem State.complete_i : s.complete.i = s.i := rfl
@[simp] theorem State.complete_stack : s.complete.stack = s.stack := rfl
@[simp] theorem State.complete_sp : s.complete.sp = s.sp := rfl
@[simp] theorem State.complete_dt : s.complete.dt = s.dt := rfl
@[simp] theorem State.complete_st : s.complete.st = s.st := rfl
@[simp] theorem State.complete_fb : s.complete.fb = s.fb := rfl
@[simp] theorem State.complete_key : s.complete.key = s.key := rfl
@[simp] theorem State.complete_lastOp : s.complete.lastOp = s.lastOp := rfl
@[simp] theorem State.complete_halted : s.complete.halted = s.halted := rfl
@[simp] theorem State.complete_draw : s.complete.draw = s.draw := rfl
@[simp] theorem State.complete_waiting : s.complete.waiting = false := rfl
@[simp] theorem State.complete_lastEvent : s.complete.lastEvent = .none := rfl
@[simp] theorem State.complete_faultCode : s.complete.faultCode = s.faultCode := rfl
@[simp] theorem State.complete_faultPc : s.complete.faultPc = s.faultPc := rfl
@[simp] theorem State.complete_faultAddr : s.complete.faultAddr = s.faultAddr := rfl
@[simp] theorem State.complete_rndIndex : s.complete.rndIndex = s.rndIndex := rfl

/-! ### completeWaiting -/

@[simp] theorem State.completeWaiting_params : s.completeWaiting.params = s.params := rfl
@[simp] theorem State.completeWaiting_mem : s.completeWaiting.mem = s.mem := rfl
@[simp] theorem State.completeWaiting_v : s.completeWaiting.v = s.v := rfl
@[simp] theorem State.completeWaiting_pc : s.completeWaiting.pc = s.pc := rfl
@[simp] theorem State.completeWaiting_i : s.completeWaiting.i = s.i := rfl
@[simp] theorem State.completeWaiting_stack : s.completeWaiting.stack = s.stack := rfl
@[simp] theorem State.completeWaiting_sp : s.completeWaiting.sp = s.sp := rfl
@[simp] theorem State.completeWaiting_dt : s.completeWaiting.dt = s.dt := rfl
@[simp] theorem State.completeWaiting_st : s.completeWaiting.st = s.st := rfl
@[simp] theorem State.completeWaiting_fb : s.completeWaiting.fb = s.fb := rfl
@[simp] theorem State.completeWaiting_key : s.completeWaiting.key = s.key := rfl
@[simp] theorem State.completeWaiting_lastOp : s.completeWaiting.lastOp = s.lastOp := rfl
@[simp] theorem State.completeWaiting_halted : s.completeWaiting.halted = s.halted := rfl
@[simp] theorem State.completeWaiting_draw : s.completeWaiting.draw = s.draw := rfl
@[simp] theorem State.completeWaiting_waiting : s.completeWaiting.waiting = true := rfl
@[simp] theorem State.completeWaiting_lastEvent : s.completeWaiting.lastEvent = .none := rfl
@[simp] theorem State.completeWaiting_faultCode : s.completeWaiting.faultCode = s.faultCode := rfl
@[simp] theorem State.completeWaiting_faultPc : s.completeWaiting.faultPc = s.faultPc := rfl
@[simp] theorem State.completeWaiting_faultAddr : s.completeWaiting.faultAddr = s.faultAddr := rfl
@[simp] theorem State.completeWaiting_rndIndex : s.completeWaiting.rndIndex = s.rndIndex := rfl

/-! ### completeUnrecognized -/

@[simp] theorem State.completeUnrecognized_params : s.completeUnrecognized.params = s.params := rfl
@[simp] theorem State.completeUnrecognized_mem : s.completeUnrecognized.mem = s.mem := rfl
@[simp] theorem State.completeUnrecognized_v : s.completeUnrecognized.v = s.v := rfl
@[simp] theorem State.completeUnrecognized_pc : s.completeUnrecognized.pc = s.pc := rfl
@[simp] theorem State.completeUnrecognized_i : s.completeUnrecognized.i = s.i := rfl
@[simp] theorem State.completeUnrecognized_stack : s.completeUnrecognized.stack = s.stack := rfl
@[simp] theorem State.completeUnrecognized_sp : s.completeUnrecognized.sp = s.sp := rfl
@[simp] theorem State.completeUnrecognized_dt : s.completeUnrecognized.dt = s.dt := rfl
@[simp] theorem State.completeUnrecognized_st : s.completeUnrecognized.st = s.st := rfl
@[simp] theorem State.completeUnrecognized_fb : s.completeUnrecognized.fb = s.fb := rfl
@[simp] theorem State.completeUnrecognized_key : s.completeUnrecognized.key = s.key := rfl
@[simp] theorem State.completeUnrecognized_lastOp : s.completeUnrecognized.lastOp = s.lastOp := rfl
@[simp] theorem State.completeUnrecognized_halted : s.completeUnrecognized.halted = s.halted := rfl
@[simp] theorem State.completeUnrecognized_draw : s.completeUnrecognized.draw = s.draw := rfl
@[simp] theorem State.completeUnrecognized_waiting : s.completeUnrecognized.waiting = (s.params.decodeErrorKeepsWaiting && s.waiting) := rfl
@[simp] theorem State.completeUnrecognized_lastEvent : s.completeUnrecognized.lastEvent = .decodeError := rfl
@[simp] theorem State.completeUnrecognized_faultCode : s.completeUnrecognized.faultCode = s.faultCode := rfl
@[simp] theorem State.completeUnrecognized_faultPc : s.completeUnrecognized.faultPc = s.faultPc := rfl
@[simp] theorem State.completeUnrecognized_faultAddr : s.completeUnrecognized.faultAddr = s.faultAddr := rfl
@[simp] theorem State.completeUnrecognized_rndIndex : s.completeUnrecognized.rndIndex = s.rndIndex := rfl

/-! ### refuse -/

@[simp] theorem State.refuse_params : s.refuse.params = s.params := rfl
@[simp] theorem State.refuse_mem : s.refuse.mem = s.mem := rfl
@[simp] theorem State.refuse_v : s.refuse.v = s.v := rfl
@[simp] theorem State.refuse_pc : s.refuse.pc = s.pc := rfl
@[simp] theorem State.refuse_i : s.refuse.i = s.i := rfl
@[simp] theorem State.refuse_stack : s.refuse.stack = s.stack := rfl
@[simp] theorem State.refuse_sp : s.refuse.sp = s.sp := rfl
@[simp] theorem State.refuse_dt : s.refuse.dt = s.dt := rfl
@[simp] theorem State.refuse_st : s.refuse.st = s.st := rfl
@[simp] theorem State.refuse_fb : s.refuse.fb = s.fb := rfl
@[simp] theorem State.refuse_key : s.refuse.key = s.key := rfl
@[simp] theorem State.refuse_lastOp : s.refuse.lastOp = s.lastOp := rfl
@[simp] theorem State.refuse_halted : s.refuse.halted = s.halted := rfl
@[simp] theorem State.refuse_draw : s.refuse.draw = s.draw := rfl
@[simp] theorem State.refuse_waiting : s.refuse.waiting = s.waiting := rfl
@[simp] theorem State.refuse_lastEvent : s.refuse.lastEvent = .refused := rfl
@[simp] theorem State.refuse_faultCode : s.refuse.faultCode = s.faultCode := rfl
@[simp] theorem State.refuse_faultPc : s.refuse.faultPc = s.faultPc := rfl
@[simp] theorem State.refuse_faultAddr : s.refuse.faultAddr = s.faultAddr := rfl
@[simp] theorem State.refuse_rndIndex : s.refuse.rndIndex = s.rndIndex := rfl

/-! ### takeFault -/

@[simp] theorem State.takeFault_params (c : FaultCode) (p a : Word) : (s.takeFault c p a).params = s.params := rfl
@[simp] theorem State.takeFault_mem (c : FaultCode) (p a : Word) : (s.takeFault c p a).mem = s.mem := rfl
@[simp] theorem State.takeFault_v (c : FaultCode) (p a : Word) : (s.takeFault c p a).v = s.v := rfl
@[simp] theorem State.takeFault_pc (c : FaultCode) (p a : Word) : (s.takeFault c p a).pc = s.pc := rfl
@[simp] theorem State.takeFault_i (c : FaultCode) (p a : Word) : (s.takeFault c p a).i = s.i := rfl
@[simp] theorem State.takeFault_stack (c : FaultCode) (p a : Word) : (s.takeFault c p a).stack = s.stack := rfl
@[simp] theorem State.takeFault_sp (c : FaultCode) (p a : Word) : (s.takeFault c p a).sp = s.sp := rfl
@[simp] theorem State.takeFault_dt (c : FaultCode) (p a : Word) : (s.takeFault c p a).dt = s.dt := rfl
@[simp] theorem State.takeFault_st (c : FaultCode) (p a : Word) : (s.takeFault c p a).st = s.st := rfl
@[simp] theorem State.takeFault_fb (c : FaultCode) (p a : Word) : (s.takeFault c p a).fb = s.fb := rfl
@[simp] theorem State.takeFault_key (c : FaultCode) (p a : Word) : (s.takeFault c p a).key = s.key := rfl
@[simp] theorem State.takeFault_lastOp (c : FaultCode) (p a : Word) : (s.takeFault c p a).lastOp = s.lastOp := rfl
@[simp] theorem State.takeFault_halted (c : FaultCode) (p a : Word) : (s.takeFault c p a).halted = (s.halted || !s.params.continueAfterFault) := rfl
@[simp] theorem State.takeFault_draw (c : FaultCode) (p a : Word) : (s.takeFault c p a).draw = s.draw := rfl
@[simp] theorem State.takeFault_waiting (c : FaultCode) (p a : Word) : (s.takeFault c p a).waiting = false := rfl
@[simp] theorem State.takeFault_lastEvent (c : FaultCode) (p a : Word) : (s.takeFault c p a).lastEvent = .fault := rfl
@[simp] theorem State.takeFault_faultCode (c : FaultCode) (p a : Word) : (s.takeFault c p a).faultCode = if s.faultCode = .none then c else s.faultCode := rfl
@[simp] theorem State.takeFault_faultPc (c : FaultCode) (p a : Word) : (s.takeFault c p a).faultPc = if s.faultCode = .none then p else s.faultPc := rfl
@[simp] theorem State.takeFault_faultAddr (c : FaultCode) (p a : Word) : (s.takeFault c p a).faultAddr = if s.faultCode = .none then a else s.faultAddr := rfl
@[simp] theorem State.takeFault_rndIndex (c : FaultCode) (p a : Word) : (s.takeFault c p a).rndIndex = s.rndIndex := rfl

/-! ### fetched -/

@[simp] theorem State.fetched_params (w : Word) : (s.fetched w).params = s.params := rfl
@[simp] theorem State.fetched_mem (w : Word) : (s.fetched w).mem = s.mem := rfl
@[simp] theorem State.fetched_v (w : Word) : (s.fetched w).v = s.v := rfl
@[simp] theorem State.fetched_pc (w : Word) : (s.fetched w).pc = s.pc + 2 := rfl
@[simp] theorem State.fetched_i (w : Word) : (s.fetched w).i = s.i := rfl
@[simp] theorem State.fetched_stack (w : Word) : (s.fetched w).stack = s.stack := rfl
@[simp] theorem State.fetched_sp (w : Word) : (s.fetched w).sp = s.sp := rfl
@[simp] theorem State.fetched_dt (w : Word) : (s.fetched w).dt = s.dt := rfl
@[simp] theorem State.fetched_st (w : Word) : (s.fetched w).st = s.st := rfl
@[simp] theorem State.fetched_fb (w : Word) : (s.fetched w).fb = s.fb := rfl
@[simp] theorem State.fetched_key (w : Word) : (s.fetched w).key = s.key := rfl
@[simp] theorem State.fetched_lastOp (w : Word) : (s.fetched w).lastOp = w := rfl
@[simp] theorem State.fetched_halted (w : Word) : (s.fetched w).halted = s.halted := rfl
@[simp] theorem State.fetched_draw (w : Word) : (s.fetched w).draw = s.draw := rfl
@[simp] theorem State.fetched_waiting (w : Word) : (s.fetched w).waiting = s.waiting := rfl
@[simp] theorem State.fetched_lastEvent (w : Word) : (s.fetched w).lastEvent = s.lastEvent := rfl
@[simp] theorem State.fetched_faultCode (w : Word) : (s.fetched w).faultCode = s.faultCode := rfl
@[simp] theorem State.fetched_faultPc (w : Word) : (s.fetched w).faultPc = s.faultPc := rfl
@[simp] theorem State.fetched_faultAddr (w : Word) : (s.fetched w).faultAddr = s.faultAddr := rfl
@[simp] theorem State.fetched_rndIndex (w : Word) : (s.fetched w).rndIndex = s.rndIndex + 1 := rfl

/-! ### setKey -/

@[simp] theorem State.setKey_params (k : Option (BitVec 4)) : (s.setKey k).params = s.params := rfl
@[simp] theorem State.setKey_mem (k : Option (BitVec 4)) : (s.setKey k).mem = s.mem := rfl
@[simp] theorem State.setKey_v (k : Option (BitVec 4)) : (s.setKey k).v = s.v := rfl
@[simp] theorem State.setKey_pc (k : Option (BitVec 4)) : (s.setKey k).pc = s.pc := rfl
@[simp] theorem State.setKey_i (k : Option (BitVec 4)) : (s.setKey k).i = s.i := rfl
@[simp] theorem State.setKey_stack (k : Option (BitVec 4)) : (s.setKey k).stack = s.stack := rfl
@[simp] theorem State.setKey_sp (k : Option (BitVec 4)) : (s.setKey k).sp = s.sp := rfl
@[simp] theorem State.setKey_dt (k : Option (BitVec 4)) : (s.setKey k).dt = s.dt := rfl
@[simp] theorem State.setKey_st (k : Option (BitVec 4)) : (s.setKey k).st = s.st := rfl
@[simp] theorem State.setKey_fb (k : Option (BitVec 4)) : (s.setKey k).fb = s.fb := rfl
@[simp] theorem State.setKey_key (k : Option (BitVec 4)) : (s.setKey k).key = k := rfl
@[simp] theorem State.setKey_lastOp (k : Option (BitVec 4)) : (s.setKey k).lastOp = s.lastOp := rfl
@[simp] theorem State.setKey_halted (k : Option (BitVec 4)) : (s.setKey k).halted = s.halted := rfl
@[simp] theorem State.setKey_draw (k : Option (BitVec 4)) : (s.setKey k).draw = s.draw := rfl
@[simp] theorem State.setKey_waiting (k : Option (BitVec 4)) : (s.setKey k).waiting = s.waiting := rfl
@[simp] theorem State.setKey_lastEvent (k : Option (BitVec 4)) : (s.setKey k).lastEvent = s.lastEvent := rfl
@[simp] theorem State.setKey_faultCode (k : Option (BitVec 4)) : (s.setKey k).faultCode = s.faultCode := rfl
@[simp] theorem State.setKey_faultPc (k : Option (BitVec 4)) : (s.setKey k).faultPc = s.faultPc := rfl
@[simp] theorem State.setKey_faultAddr (k : Option (BitVec 4)) : (s.setKey k).faultAddr = s.faultAddr := rfl
@[simp] theorem State.setKey_rndIndex (k : Option (BitVec 4)) : (s.setKey k).rndIndex = s.rndIndex := rfl

/-! ### tick -/

@[simp] theorem State.tick_params : s.tick.params = s.params := rfl
@[simp] theorem State.tick_mem : s.tick.mem = s.mem := rfl
@[simp] theorem State.tick_v : s.tick.v = s.v := rfl
@[simp] theorem State.tick_pc : s.tick.pc = s.pc := rfl
@[simp] theorem State.tick_i : s.tick.i = s.i := rfl
@[simp] theorem State.tick_stack : s.tick.stack = s.stack := rfl
@[simp] theorem State.tick_sp : s.tick.sp = s.sp := rfl
@[simp] theorem State.tick_dt : s.tick.dt = tickDown s.dt := rfl
@[simp] theorem State.tick_st : s.tick.st = tickDown s.st := rfl
@[simp] theorem State.tick_fb : s.tick.fb = s.fb := rfl
@[simp] theorem State.tick_key : s.tick.key = s.key := rfl
@[simp] theorem State.tick_lastOp : s.tick.lastOp = s.lastOp := rfl
@[simp] theorem State.tick_halted : s.tick.halted = s.halted := rfl
@[simp] theorem State.tick_draw : s.tick.draw = s.draw := rfl
@[simp] theorem State.tick_waiting : s.tick.waiting = s.waiting := rfl
@[simp] theorem State.tick_lastEvent : s.tick.lastEvent = s.lastEvent := rfl
@[simp] theorem State.tick_faultCode : s.tick.faultCode = s.faultCode := rfl
@[simp] theorem State.tick_faultPc : s.tick.faultPc = s.faultPc := rfl
@[simp] theorem State.tick_faultAddr : s.tick.faultAddr = s.faultAddr := rfl
@[simp] theorem State.tick_rndIndex : s.tick.rndIndex = s.rndIndex := rfl

/-! ### frameStart -/

@[simp] theorem State.frameStart_params : s.frameStart.params = s.params := rfl
@[simp] theorem State.frameStart_mem : s.frameStart.mem = s.mem := rfl
@[simp] theorem State.frameStart_v : s.frameStart.v = s.v := rfl
@[simp] theorem State.frameStart_pc : s.frameStart.pc = s.pc := rfl
@[simp] theorem State.frameStart_i : s.frameStart.i = s.i := rfl
@[simp] theorem State.frameStart_stack : s.frameStart.stack = s.stack := rfl
@[simp] theorem State.frameStart_sp : s.frameStart.sp = s.sp := rfl
@[simp] theorem State.frameStart_dt : s.frameStart.dt = s.dt := rfl
@[simp] theorem State.frameStart_st : s.frameStart.st = s.st := rfl
@[simp] theorem State.frameStart_fb : s.frameStart.fb = s.fb := rfl
@[simp] theorem State.frameStart_key : s.frameStart.key = s.key := rfl
@[simp] theorem State.frameStart_lastOp : s.frameStart.lastOp = s.lastOp := rfl
@[simp] theorem State.frameStart_halted : s.frameStart.halted = s.halted := rfl
@[simp] theorem State.frameStart_draw : s.frameStart.draw = false := rfl
@[simp] theorem State.frameStart_waiting : s.frameStart.waiting = s.waiting := rfl
@[simp] theorem State.frameStart_lastEvent : s.frameStart.lastEvent = s.lastEvent := rfl
@[simp] theorem State.frameStart_faultCode : s.frameStart.faultCode = s.faultCode := rfl
@[simp] theorem State.frameStart_faultPc : s.frameStart.faultPc = s.faultPc := rfl
@[simp] theorem State.frameStart_faultAddr : s.frameStart.faultAddr = s.faultAddr := rfl
@[simp] theorem State.frameStart_rndIndex : s.frameStart.rndIndex = s.rndIndex := rfl

/-! ### Derived updates -/

@[simp] theorem State.writeBytes_eq (a : Nat) (bs : List Byte) :
    s.writeBytes a bs = s.setMem (s.memWritten a bs) := rfl

@[simp] theorem State.selectPc_eq (sel : PcSelect) : s.selectPc sel = s.setPc (pcMux s.pc sel) := rfl

theorem State.skipIf_eq (c : Bool) : s.skipIf c = s.setPc (if c then s.pc + 2 else s.pc) := by
  cases c <;> rfl

theorem State.execFault_eq (c : FaultCode) (a : Word) : s.execFault c a = s.takeFault c (s.pc - 2) a := rfl

theorem State.fetchFault_eq (a : Word) : s.fetchFault a = s.takeFault .fetchOutOfRange s.pc a := rfl

end Sys2Proof.Machine
end

