-- ==== Sys2Proof/Laws/Display.lean ====
section
/-! SUPPORT. The sprite engine and the framebuffer (44_display.md): which pixels a sprite covers, and what drawing them
does. -/

namespace Sys2Proof.Machine

/-! ### The framebuffer -/

/-- A pixel after one `xor`: only that pixel is flipped (R210). -/
theorem Framebuffer.pixel_flip (fb : Framebuffer) (x x' : Fin 64) (y y' : Fin 32) :
    (fb.flip x y).pixel x' y' = if x' = x ∧ y' = y then !fb.pixel x y else fb.pixel x' y' := by
  have hx := x'.isLt
  simp only [Framebuffer.pixel, Framebuffer.flip, Fin.getElem_fin]
  by_cases hy : y' = y
  · subst hy
    rw [Vector.getElem_set_self, BitVec.getLsbD_xor, BitVec.getLsbD_twoPow]
    by_cases e : x' = x
    · subst e
      simp
    · have : x.val ≠ x'.val := fun h => e (Fin.eq_of_val_eq h.symm)
      simp [e, this]
  · have : y.val ≠ y'.val := fun h => hy (Fin.eq_of_val_eq h.symm)
    simp [hy, Vector.getElem_set_ne, this]

theorem Framebuffer.pixel_clear (x : Fin 64) (y : Fin 32) : Framebuffer.clear.pixel x y = false := by
  simp [Framebuffer.pixel, Framebuffer.clear]

/-- Two framebuffers with the same pixels are equal. -/
theorem Framebuffer.ext_pixel {fb fb' : Framebuffer} (h : ∀ x y, fb.pixel x y = fb'.pixel x y) : fb = fb' := by
  apply Vector.ext
  intro y hy
  apply BitVec.eq_of_getLsbD_eq
  intro x hx
  exact h ⟨x, hx⟩ ⟨y, hy⟩

/-! ### Which pixels a sprite covers -/

theorem bitTarget_eq_some {x0 y b : Nat} {row : Byte} {p : Fin 64 × Fin 32} :
    bitTarget x0 y row b = some p ↔ row.getLsbD (7 - b) = true ∧ p.1.val = x0 + b ∧ p.2.val = y := by
  unfold bitTarget
  constructor
  · intro h
    split at h
    · rename_i hc
      obtain rfl := Option.some.inj h
      exact ⟨hc.1, rfl, rfl⟩
    · simp at h
  · rintro ⟨hbit, hx, hy⟩
    have h1 := p.1.isLt
    have h2 := p.2.isLt
    rw [dif_pos ⟨hbit, by omega, by omega⟩]
    exact congrArg some (Prod.ext (Fin.eq_of_val_eq hx.symm) (Fin.eq_of_val_eq hy.symm))

theorem mem_rowTargets {x0 y : Nat} {row : Byte} {p : Fin 64 × Fin 32} :
    p ∈ rowTargets x0 y row ↔ ∃ b, b < 8 ∧ row.getLsbD (7 - b) = true ∧ p.1.val = x0 + b ∧ p.2.val = y := by
  simp only [rowTargets, List.mem_filterMap, List.mem_range, bitTarget_eq_some]

/-- The sprite engine drives `xor` for exactly the pixels the sprite covers (R212, R214). -/
theorem mem_spriteTargets {x0 y0 : Nat} {rows : List Byte} {px : Fin 64} {py : Fin 32} :
    (px, py) ∈ spriteTargets x0 y0 rows ↔ Covers x0 y0 rows px py := by
  induction rows generalizing y0 with
  | nil => simp [spriteTargets, Covers]
  | cons row rows ih =>
    rw [spriteTargets, List.mem_append, mem_rowTargets, ih]
    constructor
    · rintro (⟨b, hb, hbit, hx, hy⟩ | ⟨r, b, row', hr, hb, hbit, hx, hy⟩)
      · exact ⟨0, b, row, rfl, hb, hbit, hx, by omega⟩
      · exact ⟨r + 1, b, row', by simpa using hr, hb, hbit, hx, by omega⟩
    · rintro ⟨r, b, row', hr, hb, hbit, hx, hy⟩
      cases r with
      | zero =>
        obtain rfl : row = row' := by simpa using hr
        exact .inl ⟨b, hb, hbit, hx, by omega⟩
      | succ r => exact .inr ⟨r, b, row', by simpa using hr, hb, hbit, hx, by omega⟩

theorem rowTargets_nodup (x0 y : Nat) (row : Byte) : (rowTargets x0 y row).Nodup := by
  refine List.Nodup.filterMap (fun b b' p hb hb' => ?_) List.nodup_range
  obtain ⟨-, h1, -⟩ := bitTarget_eq_some.1 hb
  obtain ⟨-, h2, -⟩ := bitTarget_eq_some.1 hb'
  omega

/-- Within one DXYN each pixel is touched at most once (R216). -/
theorem spriteTargets_nodup (x0 y0 : Nat) (rows : List Byte) : (spriteTargets x0 y0 rows).Nodup := by
  induction rows generalizing y0 with
  | nil => simp [spriteTargets]
  | cons row rows ih =>
    rw [spriteTargets, List.nodup_append]
    refine ⟨rowTargets_nodup x0 y0 row, ih (y0 + 1), ?_⟩
    rintro ⟨px, py⟩ h1 ⟨px', py'⟩ h2 e
    obtain ⟨b, -, -, -, hy⟩ := mem_rowTargets.1 h1
    obtain ⟨r, b', row', -, -, -, -, hy'⟩ := mem_spriteTargets.1 h2
    have : py = py' := congrArg Prod.snd e
    simp only at hy
    omega

/-! ### Drawing -/

/-- Everything driving `xor` over distinct pixels does: each is flipped, no other changes, and the collision bit tells
whether one of them was set. -/
theorem xorAll_spec (hit : Bool) (fb : Framebuffer) (ps : List (Fin 64 × Fin 32)) (hn : ps.Nodup) :
    (∀ x y, (xorAll hit fb ps).2.pixel x y = if (x, y) ∈ ps then !fb.pixel x y else fb.pixel x y) ∧
    ((xorAll hit fb ps).1 = true ↔ hit = true ∨ ∃ x y, (x, y) ∈ ps ∧ fb.pixel x y = true) := by
  induction ps generalizing hit fb with
  | nil => simp [xorAll]
  | cons p ps ih =>
    obtain ⟨px, py⟩ := p
    obtain ⟨hp, hn'⟩ := List.nodup_cons.1 hn
    obtain ⟨h1, h2⟩ := ih (hit || fb.pixel px py) (fb.flip px py) hn'
    have hne : ∀ x y, (x, y) ∈ ps → ¬(x = px ∧ y = py) := by
      rintro x y hm ⟨rfl, rfl⟩
      exact hp hm
    constructor
    · intro x y
      have := h1 x y
      simp only [xorAll, Framebuffer.xor] at this ⊢
      rw [this, Framebuffer.pixel_flip]
      by_cases hm : (x, y) ∈ ps
      · simp [hm, hne x y hm]
      · by_cases e : x = px ∧ y = py
        · obtain ⟨rfl, rfl⟩ := e
          simp [hm]
        · have : ¬(x, y) = (px, py) := fun h => e ⟨congrArg Prod.fst h, congrArg Prod.snd h⟩
          simp only [hm, List.mem_cons, this, e, if_false, or_self]
    · simp only [xorAll, Framebuffer.xor]
      rw [h2]
      constructor
      · rintro (h | ⟨x, y, hm, hpix⟩)
        · rcases Bool.or_eq_true_iff.1 h with h | h
          · exact .inl h
          · exact .inr ⟨px, py, by simp, h⟩
        · rw [Framebuffer.pixel_flip, if_neg (hne x y hm)] at hpix
          exact .inr ⟨x, y, by simp [hm], hpix⟩
      · rintro (h | ⟨x, y, hm, hpix⟩)
        · exact .inl (by simp [h])
        · rcases List.mem_cons.1 hm with e | hm
          · obtain ⟨rfl, rfl⟩ := Prod.mk.inj e
            exact .inl (by simp [hpix])
          · refine .inr ⟨x, y, hm, ?_⟩
            rw [Framebuffer.pixel_flip, if_neg (hne x y hm)]
            exact hpix

/-- A pixel the sprite covers is flipped (R213, R214). -/
theorem drawSprite_covered {fb : Framebuffer} {x0 y0 : Nat} {rows : List Byte} {px : Fin 64} {py : Fin 32}
    (h : Covers x0 y0 rows px py) : (drawSprite fb x0 y0 rows).2.pixel px py = !fb.pixel px py := by
  rw [drawSprite, (xorAll_spec false fb _ (spriteTargets_nodup x0 y0 rows)).1, if_pos (mem_spriteTargets.2 h)]

/-- Every other pixel is unchanged (R214). -/
theorem drawSprite_other {fb : Framebuffer} {x0 y0 : Nat} {rows : List Byte} {px : Fin 64} {py : Fin 32}
    (h : ¬Covers x0 y0 rows px py) : (drawSprite fb x0 y0 rows).2.pixel px py = fb.pixel px py := by
  rw [drawSprite, (xorAll_spec false fb _ (spriteTargets_nodup x0 y0 rows)).1,
    if_neg fun hm => h (mem_spriteTargets.1 hm)]

/-- The collision bit: some covered pixel was set (R216). -/
theorem drawSprite_collision {fb : Framebuffer} {x0 y0 : Nat} {rows : List Byte} :
    (drawSprite fb x0 y0 rows).1 = true ↔ ∃ px py, Covers x0 y0 rows px py ∧ fb.pixel px py = true := by
  rw [drawSprite, (xorAll_spec false fb _ (spriteTargets_nodup x0 y0 rows)).2]
  simp only [Bool.false_eq_true, false_or, mem_spriteTargets]

end Sys2Proof.Machine
end

