-- ==== Sys2Proof/Laws/Memory.lean ====
section
/-! SUPPORT. What memory operations do: a read after a write, the canonical form, and the bounds checks. -/

namespace Sys2Proof.Machine

variable {d : Nat → Byte} {m m' : Memory} {a a' : Nat} {b : Byte}

/-! ### One cell -/

theorem Memory.read_cons_self (c : Host.Cell) : Memory.read d (c :: m) c.1 = c.2 := by
  simp [Memory.read]

theorem Memory.read_cons_other (c : Host.Cell) (h : c.1 ≠ a) : Memory.read d (c :: m) a = Memory.read d m a := by
  simp [Memory.read, h]

/-- An address that no cell has reads as unlisted. -/
theorem Memory.read_unlisted (h : ∀ c ∈ m, c.1 ≠ a) : Memory.read d m a = d a := by
  induction m with
  | nil => rfl
  | cons c m ih =>
    rw [Memory.read_cons_other c (h c (by simp)), ih fun c' hc' => h c' (by simp [hc'])]

/-- The cells after the first of a canonical memory lie above it. -/
theorem Memory.wf_head_lt {c : Host.Cell} (h : Memory.wf d (c :: m)) : ∀ c' ∈ m, c.1 < c'.1 :=
  (List.pairwise_cons.1 h.1).1

theorem Memory.wf_tail {c : Host.Cell} (h : Memory.wf d (c :: m)) : Memory.wf d m :=
  ⟨(List.pairwise_cons.1 h.1).2, fun c' hc' => h.2 c' (by simp [hc'])⟩

theorem Memory.wf_cons {c : Host.Cell} (hm : Memory.wf d m) (hlt : ∀ c' ∈ m, c.1 < c'.1) (hc : c.1 < memSize)
    (hd : c.2 ≠ d c.1) : Memory.wf d (c :: m) :=
  ⟨List.pairwise_cons.2 ⟨hlt, hm.1⟩, by
    intro c' hc'
    rcases List.mem_cons.1 hc' with rfl | h
    · exact ⟨hc, hd⟩
    · exact hm.2 c' h⟩

/-! ### A write -/

/-- Putting a cell before a memory that has none at its address: it alone reads as the new byte. -/
theorem Memory.read_putCell (h : ∀ c ∈ m, c.1 ≠ a) :
    Memory.read d (Memory.cons d a b m) a' = if a' = a then b else Memory.read d m a' := by
  unfold Memory.cons
  by_cases e : a' = a
  · subst e
    by_cases hb : b = d a'
    · simp [hb, Memory.read_unlisted h]
    · simp [hb, Memory.read]
  · by_cases hb : b = d a
    · simp [hb, e]
    · simp [hb, e, Memory.read, Ne.symm e]

theorem Memory.wf_putCell (hm : Memory.wf d m) (hlt : ∀ c ∈ m, a < c.1) (ha : a < memSize) :
    Memory.wf d (Memory.cons d a b m) := by
  unfold Memory.cons
  split
  · exact hm
  · exact Memory.wf_cons hm hlt ha ‹_›

/-- Every cell of the memory after a write is the written one or was there before. -/
theorem Memory.mem_write {c : Host.Cell} (h : c ∈ Memory.write d m a b) : c = (a, b) ∨ c ∈ m := by
  induction m with
  | nil =>
    simp only [Memory.write, Memory.cons] at h
    split at h <;> simp_all
  | cons c' m ih =>
    simp only [Memory.write, Memory.cons] at h
    split at h
    · split at h
      · exact .inr h
      · rcases List.mem_cons.1 h with h | h
        · exact .inl h
        · exact .inr h
    · split at h
      · split at h
        · exact .inr (by simp [h])
        · rcases List.mem_cons.1 h with h | h
          · exact .inl h
          · exact .inr (by simp [h])
      · rcases List.mem_cons.1 h with h | h
        · exact .inr (by simp [h])
        · rcases ih h with h | h
          · exact .inl h
          · exact .inr (by simp [h])

/-- A read after a write, in a canonical memory. -/
theorem Memory.read_write (hm : Memory.wf d m) :
    Memory.read d (Memory.write d m a b) a' = if a' = a then b else Memory.read d m a' := by
  induction m with
  | nil => exact Memory.read_putCell (by simp)
  | cons c m ih =>
    have hlt := Memory.wf_head_lt hm
    simp only [Memory.write]
    split
    · refine Memory.read_putCell fun c' hc' => ?_
      rcases List.mem_cons.1 hc' with rfl | h
      · omega
      · have := hlt c' h
        omega
    · split
      · rw [Memory.read_putCell fun c' hc' => by have := hlt c' hc'; omega]
        by_cases e : a' = a
        · simp [e]
        · rw [if_neg e, if_neg e, Memory.read_cons_other c (by omega)]
      · by_cases e : c.1 = a'
        · subst e
          rw [Memory.read_cons_self, if_neg (by omega), Memory.read_cons_self]
        · rw [Memory.read_cons_other c e, ih (Memory.wf_tail hm), Memory.read_cons_other c e]

/-- A write inside the address space keeps the canonical form. -/
theorem Memory.wf_write (hm : Memory.wf d m) (ha : a < memSize) : Memory.wf d (Memory.write d m a b) := by
  induction m with
  | nil => exact Memory.wf_putCell hm (by simp) ha
  | cons c m ih =>
    have hlt := Memory.wf_head_lt hm
    simp only [Memory.write]
    split
    · refine Memory.wf_putCell hm (fun c' hc' => ?_) ha
      rcases List.mem_cons.1 hc' with rfl | h
      · assumption
      · have := hlt c' h
        omega
    · split
      · exact Memory.wf_putCell (Memory.wf_tail hm) (fun c' hc' => by have := hlt c' hc'; omega) ha
      · refine Memory.wf_cons (ih (Memory.wf_tail hm)) (fun c' hc' => ?_) (hm.2 c (by simp)).1 (hm.2 c (by simp)).2
        rcases Memory.mem_write hc' with rfl | h
        · simp only
          omega
        · exact hlt c' h

/-! ### Several bytes -/

theorem Memory.wf_writeList {bs : List Byte} (hm : Memory.wf d m) (ha : a + bs.length ≤ memSize) :
    Memory.wf d (Memory.writeList d m a bs) := by
  induction bs generalizing m a with
  | nil => exact hm
  | cons b bs ih =>
    simp only [List.length_cons] at ha
    exact ih (Memory.wf_write hm (by omega)) (by omega)

/-- A read after the bytes `bs` were written at `a`. -/
theorem Memory.read_writeList {bs : List Byte} (hm : Memory.wf d m) (ha : a + bs.length ≤ memSize) :
    Memory.read d (Memory.writeList d m a bs) a' =
      if a ≤ a' then (bs[a' - a]?).getD (Memory.read d m a') else Memory.read d m a' := by
  induction bs generalizing m a with
  | nil => simp [Memory.writeList]
  | cons b bs ih =>
    simp only [List.length_cons] at ha
    rw [Memory.writeList, ih (Memory.wf_write hm (by omega)) (by omega), Memory.read_write hm]
    by_cases h1 : a + 1 ≤ a'
    · have e : a' - a = (a' - (a + 1)) + 1 := by omega
      rw [if_pos h1, if_pos (show a ≤ a' by omega), if_neg (show ¬a' = a by omega), e, List.getElem?_cons_succ]
    · rw [if_neg h1]
      by_cases h2 : a' = a
      · subst h2
        simp
      · rw [if_neg h2, if_neg (show ¬a ≤ a' by omega)]

/-- A read outside the written bytes. -/
theorem Memory.read_writeList_outside {bs : List Byte} (hm : Memory.wf d m) (ha : a + bs.length ≤ memSize)
    (h : a' < a ∨ a + bs.length ≤ a') : Memory.read d (Memory.writeList d m a bs) a' = Memory.read d m a' := by
  rw [Memory.read_writeList hm ha]
  split
  · rw [List.getElem?_eq_none (by omega)]
    rfl
  · rfl

/-- A read of a written byte. -/
theorem Memory.read_writeList_inside {bs : List Byte} (hm : Memory.wf d m) (ha : a + bs.length ≤ memSize) {k : Nat}
    (hk : k < bs.length) : Memory.read d (Memory.writeList d m a bs) (a + k) = bs[k] := by
  rw [Memory.read_writeList hm ha, if_pos (by omega), show a + k - a = k by omega, List.getElem?_eq_getElem hk]
  rfl

/-! ### The state's memory -/

theorem State.readByte_of_mem {s t : State} (hm : t.mem = s.mem) (hp : t.params = s.params) (a : Nat) :
    t.readByte a = s.readByte a := by
  simp [State.readByte, State.unlisted, hm, hp]

theorem State.readByte_setMem (s : State) (m : Memory) (a : Nat) :
    (s.setMem m).readByte a = Memory.read s.unlisted m a := rfl

@[simp] theorem State.length_readBytes (s : State) (a n : Nat) : (s.readBytes a n).length = n := by
  simp [State.readBytes]

@[simp] theorem State.getElem_readBytes (s : State) (a n k : Nat) (h : k < (s.readBytes a n).length) :
    (s.readBytes a n)[k] = s.readByte (a + k) := by
  simp [State.readBytes]

/-! ### The checks (R64, R69) -/

theorem boundsFault_none {a n : Nat} : boundsFault a n = none ↔ n = 0 ∨ a + n ≤ 4096 := by
  unfold boundsFault
  split <;> simp <;> omega

theorem boundsFault_some {a n : Nat} {w : Word} (h : boundsFault a n = some w) :
    n ≠ 0 ∧ 4096 < a + n ∧ w = outOfRangeAddr a := by
  unfold boundsFault at h
  split at h
  · simp at h
  · simp only [Option.some.injEq] at h
    exact ⟨by omega, by omega, h.symm⟩

theorem boundsFault_of_past {a n : Nat} (hn : n ≠ 0) (h : 4096 < a + n) :
    boundsFault a n = some (outOfRangeAddr a) := by
  unfold boundsFault
  rw [if_neg (by omega)]

theorem outOfRangeAddr_toNat {a : Nat} (h : a < 65536) : (outOfRangeAddr a).toNat = max a 4096 := by
  have : max a 4096 < 65536 := by omega
  simp only [outOfRangeAddr, memSize, BitVec.toNat_ofNat]
  omega

theorem writeFault_none {p : Bool} {a n : Nat} :
    writeFault p a n = none ↔ n = 0 ∨ a + n ≤ 4096 ∧ (p = true → 80 ≤ a) := by
  unfold writeFault
  split
  · rename_i w h
    have := boundsFault_some h
    simp only [reduceCtorEq, false_iff]
    omega
  · rename_i h
    have := boundsFault_none.1 h
    cases p
    · simp
      omega
    · simp [fontSize]
      omega

/-- What a failed write check reports: past the end, or the protected font. -/
theorem writeFault_some {p : Bool} {a n : Nat} {w : Word} (h : writeFault p a n = some w) :
    n ≠ 0 ∧ (4096 < a + n ∧ w = outOfRangeAddr a ∨
      a + n ≤ 4096 ∧ p = true ∧ a < 80 ∧ w = BitVec.ofNat 16 a) := by
  unfold writeFault at h
  split at h
  · rename_i w' hb
    simp only [Option.some.injEq] at h
    have := boundsFault_some hb
    exact ⟨this.1, .inl ⟨this.2.1, h ▸ this.2.2⟩⟩
  · rename_i hb
    have := boundsFault_none.1 hb
    split at h
    · rename_i hc
      simp only [Option.some.injEq] at h
      simp only [fontSize] at hc
      exact ⟨hc.2.1, .inr ⟨by omega, hc.1, hc.2.2, h.symm⟩⟩
    · simp at h

theorem writeFault_of_past {p : Bool} {a n : Nat} (hn : n ≠ 0) (h : 4096 < a + n) :
    writeFault p a n = some (outOfRangeAddr a) := by
  simp [writeFault, boundsFault_of_past hn h]

theorem writeFault_of_font {a n : Nat} (hn : n ≠ 0) (h : a + n ≤ 4096) (ha : a < 80) :
    writeFault true a n = some (BitVec.ofNat 16 a) := by
  simp [writeFault, boundsFault_none.2 (.inr h), fontSize, hn, ha]

end Sys2Proof.Machine
end

