-- ==== Sys2Proof/Laws/Ops.lean ====
section
/-! SUPPORT. What the shared operations do: registers, the stack, the end of a step, and taking a fault. -/

namespace Sys2Proof.Machine

variable {s t : State}

/-! ### Accessors of updated states -/

theorem State.reg_eq_of_v (h : t.v = s.v) (k : Reg) : t.reg k = s.reg k := by
  simp [State.reg, h]

theorem State.pixel_eq_of_fb (h : t.fb = s.fb) (x : Fin 64) (y : Fin 32) : t.pixel x y = s.pixel x y := by
  simp [State.pixel, h]

/-- A register after a register write. -/
theorem State.reg_setReg (s : State) (k : Reg) (b : Byte) (j : Reg) :
    (s.setReg k b).reg j = if j = k then b else s.reg j := by
  by_cases h : j = k
  · subst h
    simp [State.reg, State.setReg]
  · have : k.val ≠ j.val := fun e => h (Fin.eq_of_val_eq e.symm)
    simp [State.reg, State.setReg, h, Vector.getElem_set_ne, this]

@[simp] theorem State.reg_complete (s : State) (k : Reg) : s.complete.reg k = s.reg k := rfl
@[simp] theorem State.reg_completeWaiting (s : State) (k : Reg) : s.completeWaiting.reg k = s.reg k := rfl
@[simp] theorem State.reg_redraw (s : State) (fb : Framebuffer) (k : Reg) : (s.redraw fb).reg k = s.reg k := rfl
@[simp] theorem State.reg_setPc (s : State) (a : Word) (k : Reg) : (s.setPc a).reg k = s.reg k := rfl
@[simp] theorem State.reg_setMem (s : State) (m : Memory) (k : Reg) : (s.setMem m).reg k = s.reg k := rfl
@[simp] theorem State.readByte_complete (s : State) (a : Nat) : s.complete.readByte a = s.readByte a := rfl
@[simp] theorem State.pixel_complete (s : State) (x : Fin 64) (y : Fin 32) : s.complete.pixel x y = s.pixel x y := rfl

/-! ### Loading registers (FX65) -/

/-- What FX65's loop changes: the registers alone. -/
theorem State.loadRegs_eq (s : State) (k : Nat) (bs : List Byte) :
    s.loadRegs k bs = { s with v := (s.loadRegs k bs).v } := by
  induction bs generalizing s k with
  | nil => rfl
  | cons b bs ih =>
    rw [State.loadRegs, ih]
    rfl

/-- A register after FX65's loop: the bytes go to the registers from `k` on. -/
theorem State.reg_loadRegs (s : State) (k : Nat) (bs : List Byte) (h : k + bs.length ≤ 16) (j : Reg) :
    (s.loadRegs k bs).reg j = if k ≤ j.val then (bs[j.val - k]?).getD (s.reg j) else s.reg j := by
  induction bs generalizing s k with
  | nil => simp [State.loadRegs]
  | cons b bs ih =>
    simp only [List.length_cons] at h
    have hk : (Fin.ofNat 16 k).val = k := by
      simp only [Fin.val_ofNat]
      omega
    rw [State.loadRegs, ih _ _ (by omega), State.reg_setReg]
    by_cases h1 : k + 1 ≤ j.val
    · have e : j.val - k = (j.val - (k + 1)) + 1 := by omega
      have hne : j ≠ Fin.ofNat 16 k := fun e' => by
        have := congrArg Fin.val e'
        omega
      rw [if_pos h1, if_pos (show k ≤ j.val by omega), if_neg hne, e, List.getElem?_cons_succ]
    · rw [if_neg h1]
      by_cases h2 : j = Fin.ofNat 16 k
      · have : j.val = k := by
          rw [h2]
          exact hk
        rw [if_pos h2, if_pos (show k ≤ j.val by omega), this]
        simp
      · have : ¬k ≤ j.val := fun hle => h2 (Fin.eq_of_val_eq (by omega))
        rw [if_neg h2, if_neg this]

@[simp] theorem State.length_regBytes (s : State) (x : Reg) : (s.regBytes x).length = x.val + 1 := by
  simp [State.regBytes]

theorem State.getElem_regBytes (s : State) (x k : Reg) (h : k.val < (s.regBytes x).length) :
    (s.regBytes x)[k.val] = s.reg k := by
  simp [State.regBytes]

/-! ### The stack (R114) -/

theorem State.push?_none {a : Word} : s.push? a = none ↔ s.sp.val = 16 := by
  have := s.sp.isLt
  unfold State.push?
  split <;> simp <;> omega

theorem State.push?_some {a : Word} (h : s.push? a = some t) :
    ∃ hlt : s.sp.val < 16, t = s.setStack (s.stack.set s.sp.val a hlt) ⟨s.sp.val + 1, by omega⟩ := by
  unfold State.push? at h
  split at h
  · exact ⟨‹_›, (Option.some.inj h).symm⟩
  · simp at h

theorem State.push?_of_lt {a : Word} (h : s.sp.val < 16) :
    s.push? a = some (s.setStack (s.stack.set s.sp.val a h) ⟨s.sp.val + 1, by omega⟩) := by
  simp [State.push?, h]

theorem State.pop?_none : s.pop? = none ↔ s.sp.val = 0 := by
  unfold State.pop?
  split <;> simp <;> omega

theorem State.pop?_some {a : Word} (h : s.pop? = some (a, t)) :
    ∃ _ : s.sp.val ≠ 0, a = s.stack[s.sp.val - 1]'(by omega) ∧
      t = s.setStack s.stack ⟨s.sp.val - 1, by omega⟩ := by
  unfold State.pop? at h
  split at h
  · simp at h
  · obtain ⟨h1, h2⟩ := Prod.mk.inj (Option.some.inj h)
    exact ⟨‹_›, h1.symm, h2.symm⟩

theorem State.pop?_of_pos (h : s.sp.val ≠ 0) :
    s.pop? = some (s.stack[s.sp.val - 1]'(by omega), s.setStack s.stack ⟨s.sp.val - 1, by omega⟩) := by
  simp [State.pop?, h]

/-! ### Flags (R141) -/

theorem flagByte_toNat (f : Bool) : (flagByte f).toNat = if f then 1 else 0 := by
  cases f <;> rfl

theorem addResult_toNat (a b : Byte) : (addResult a b).toNat = (a.toNat + b.toNat) % 256 := by
  simp [addResult]

theorem subResult_toNat (a b : Byte) : (subResult a b).toNat = (a.toNat + 256 - b.toNat) % 256 := by
  have := a.isLt
  have := b.isLt
  simp only [subResult, BitVec.toNat_ofInt]
  omega

theorem shrResult_toNat (a : Byte) : (shrResult a).toNat = a.toNat / 2 := by
  simp [shrResult, BitVec.toNat_ushiftRight, Nat.shiftRight_eq_div_pow]

theorem shlResult_toNat (a : Byte) : (shlResult a).toNat = a.toNat * 2 % 256 := by
  simp [shlResult, BitVec.toNat_shiftLeft, Nat.shiftLeft_eq]

theorem shrFlag_toNat (a : Byte) : (flagByte (shrFlag a)).toNat = a.toNat % 2 := by
  rw [flagByte_toNat, shrFlag, BitVec.getLsbD, Nat.testBit_zero]
  rcases Nat.mod_two_eq_zero_or_one a.toNat with h | h <;> simp [h]

theorem shlFlag_toNat (a : Byte) : (flagByte (shlFlag a)).toNat = a.toNat / 128 := by
  have := a.isLt
  rw [flagByte_toNat, shlFlag, BitVec.getLsbD, Nat.testBit_eq_decide_div_mod_eq]
  simp only [decide_eq_true_eq, Nat.reducePow]
  split <;> omega

/-- The registers after the two writes of a flag-producing operation. -/
theorem State.reg_writeFlagged (s : State) (x : Reg) (r : Byte) (f : Bool) (j : Reg) :
    (s.writeFlagged x r f).reg j =
      if j = x ∧ (x ≠ regF ∨ s.params.flagWriteLast = false) then r
      else if j = regF then flagByte f else s.reg j := by
  unfold State.writeFlagged
  cases h : s.params.flagWriteLast <;>
    by_cases h1 : j = x <;> by_cases h2 : j = regF <;> by_cases h3 : x = regF <;>
    simp_all [State.reg_setReg]

/-- What the two writes change: the registers alone. -/
theorem State.writeFlagged_eq (s : State) (x : Reg) (r : Byte) (f : Bool) :
    s.writeFlagged x r f = { s with v := (s.writeFlagged x r f).v } := by
  unfold State.writeFlagged
  split <;> rfl

/-! ### Frames -/

theorem UnchangedBut.refl (c : Piece → Prop) (s : State) : UnchangedBut c s s := by
  intro p _
  cases p <;> rfl

theorem UnchangedBut.mono {c c' : Piece → Prop} (h : UnchangedBut c s t) (hc : ∀ p, c p → c' p) :
    UnchangedBut c' s t := fun p hp => h p fun hq => hp (hc p hq)

theorem Piece.same_trans {u : State} {p : Piece} (h : p.same s t) (h' : p.same t u) : p.same s u := by
  cases p <;> exact Eq.trans h' h

theorem Piece.same_symm {p : Piece} (h : p.same s t) : p.same t s := by
  cases p <;> exact Eq.symm h

theorem UnchangedBut.trans {c : Piece → Prop} {u : State} (h : UnchangedBut c s t) (h' : UnchangedBut c t u) :
    UnchangedBut c s u := fun p hp => Piece.same_trans (h p hp) (h' p hp)

/-- A frame from the fields: `changed` must hold of the pieces of every field that may differ. -/
theorem UnchangedBut.of_fields {c : Piece → Prop}
    (hreg : ∀ k, ¬c (.reg k) → t.reg k = s.reg k) (hpc : ¬c .pc → t.pc = s.pc) (hi : ¬c .i → t.i = s.i)
    (hstack : ∀ k : Fin 16, ¬c (.stack k) → t.stack[k] = s.stack[k]) (hsp : ¬c .sp → t.sp = s.sp)
    (hdt : ¬c .dt → t.dt = s.dt) (hst : ¬c .st → t.st = s.st)
    (hpix : ∀ x y, ¬c (.pixel x y) → t.pixel x y = s.pixel x y) (hkey : ¬c .key → t.key = s.key)
    (hop : ¬c .lastOp → t.lastOp = s.lastOp) (hhalt : ¬c .halted → t.halted = s.halted)
    (hdraw : ¬c .draw → t.draw = s.draw) (hwait : ¬c .waiting → t.waiting = s.waiting)
    (hev : ¬c .lastEvent → t.lastEvent = s.lastEvent) (hfc : ¬c .faultCode → t.faultCode = s.faultCode)
    (hfp : ¬c .faultPc → t.faultPc = s.faultPc) (hfa : ¬c .faultAddr → t.faultAddr = s.faultAddr)
    (hbyte : ∀ a, ¬c (.byte a) → t.readByte a = s.readByte a) (hpar : ¬c .params → t.params = s.params)
    (hrnd : ¬c .rndIndex → t.rndIndex = s.rndIndex) : UnchangedBut c s t := by
  intro p hp
  cases p with
  | reg k => exact hreg k hp
  | pc => exact hpc hp
  | i => exact hi hp
  | stack k => exact hstack k hp
  | sp => exact hsp hp
  | dt => exact hdt hp
  | st => exact hst hp
  | pixel x y => exact hpix x y hp
  | key => exact hkey hp
  | lastOp => exact hop hp
  | halted => exact hhalt hp
  | draw => exact hdraw hp
  | waiting => exact hwait hp
  | lastEvent => exact hev hp
  | faultCode => exact hfc hp
  | faultPc => exact hfp hp
  | faultAddr => exact hfa hp
  | byte a => exact hbyte a hp
  | params => exact hpar hp
  | rndIndex => exact hrnd hp

/-! ### Taking a fault (R236) -/

theorem State.takeFault_unchanged (s : State) (code : FaultCode) (p a : Word) :
    UnchangedBut Piece.faultEntry s (s.takeFault code p a) := by
  apply UnchangedBut.of_fields <;> first | exact fun _ => rfl | exact fun _ _ => rfl | exact fun _ _ _ => rfl | skip
  all_goals
    intro h
    exact absurd (by simp [Piece.faultEntry, Piece.closing]) h

/-- Everything the shared entry of a fault does. -/
theorem State.takeFault_recorded (s : State) (code : FaultCode) (p a : Word) :
    FaultRecorded code p.toNat a.toNat s (s.takeFault code p a) := by
  refine ⟨fun h => by simp [h], fun h => by simp [h], rfl, rfl, fun h => by simp [h], fun h => by simp [h],
    s.takeFault_unchanged code p a⟩

end Sys2Proof.Machine
end

