-- ==== Sys2Proof/Laws/Exec.lean ====
section
/-! SUPPORT. Everything one execute phase can do, said once: the check an instruction makes (40_step_and_control_flow.md R112,
60_exceptions.md R240), and, where the check passes, the pieces it may change. -/

namespace Sys2Proof.Machine

/-- The fault an instruction raises in a state, if any: its one check (R240). -/
def faultOf (s : State) : Instr → Option (FaultCode × Word)
  | .ret => if s.sp.val = 0 then some (.stackUnderflow, 0) else none
  | .call _ => if s.sp.val = 16 then some (.stackOverflow, 0) else none
  | .drw _ _ n => (s.readCheck n.toNat).map fun a => (.readOutOfRange, a)
  | .ldBVx _ => (s.writeCheck 3).map fun a => (.writeOutOfRange, a)
  | .ldMemVx x => (s.writeCheck (x.val + 1)).map fun a => (.writeOutOfRange, a)
  | .ldVxMem x => (s.readCheck (x.val + 1)).map fun a => (.readOutOfRange, a)
  | .cls | .jp _ | .seVxNn _ _ | .sneVxNn _ _ | .seVxVy _ _ _ | .ldVxNn _ _ | .addVxNn _ _ | .ldVxVy _ _
  | .orVxVy _ _ | .andVxVy _ _ | .xorVxVy _ _ | .addVxVy _ _ | .subVxVy _ _ | .shrVxVy _ _ | .subnVxVy _ _
  | .shlVxVy _ _ | .sneVxVy _ _ _ | .ldINnn _ | .jpV0 _ | .rnd _ _ | .skp _ | .sknp _ | .ldVxDt _ | .ldVxK _
  | .ldDtVx _ | .ldStVx _ | .addIVx _ | .ldFVx _ => none

/-- The pieces an instruction that raises no fault may change, beside the closing status. -/
def mayChange (s : State) (p : Piece) : Instr → Prop
  | .cls => p = .draw ∨ ∃ x y, p = .pixel x y
  | .ret => p = .pc ∨ p = .sp
  | .jp _ => p = .pc
  | .call _ => p = .pc ∨ p = .sp ∨ ∃ k : Fin 16, k.val = s.sp.val ∧ p = .stack k
  | .seVxNn _ _ => p = .pc
  | .sneVxNn _ _ => p = .pc
  | .seVxVy _ _ _ => p = .pc
  | .ldVxNn x _ => p = .reg x
  | .addVxNn x _ => p = .reg x
  | .ldVxVy x _ => p = .reg x
  | .orVxVy x _ => p = .reg x
  | .andVxVy x _ => p = .reg x
  | .xorVxVy x _ => p = .reg x
  | .addVxVy x _ => p = .reg x ∨ p = .reg regF
  | .subVxVy x _ => p = .reg x ∨ p = .reg regF
  | .shrVxVy x _ => p = .reg x ∨ p = .reg regF
  | .subnVxVy x _ => p = .reg x ∨ p = .reg regF
  | .shlVxVy x _ => p = .reg x ∨ p = .reg regF
  | .sneVxVy _ _ _ => p = .pc
  | .ldINnn _ => p = .i
  | .jpV0 _ => p = .pc
  | .rnd x _ => p = .reg x
  | .drw x y n => p = .draw ∨ p = .reg regF ∨ ∃ px py, p = .pixel px py ∧
      Covers (spriteX (s.reg x)) (spriteY (s.reg y)) (s.readBytes s.i.toNat n.toNat) px py
  | .skp _ => p = .pc
  | .sknp _ => p = .pc
  | .ldVxDt x => p = .reg x
  | .ldVxK x => p = .pc ∧ s.key = none ∨ p = .reg x ∧ s.params.fx0aStoresKey = true
  | .ldDtVx _ => p = .dt
  | .ldStVx _ => p = .st
  | .addIVx _ => p = .i
  | .ldFVx _ => p = .i
  | .ldBVx _ => p.inRange s.i.toNat 3
  | .ldMemVx x => p.inRange s.i.toNat (x.val + 1)
  | .ldVxMem x => ∃ k : Reg, k ≤ x ∧ p = .reg k

/-- What an execute phase that raises no fault leaves. -/
structure ExecEffect (i : Instr) (s t : State) : Prop where
  event : t.lastEvent = .none
  waits : t.waiting = true ↔ (∃ x, i = .ldVxK x) ∧ s.key = none
  frame : Memory.wf s.unlisted s.mem → UnchangedBut (fun p => p.closing ∨ mayChange s p i) s t
  frameButMemory : UnchangedBut (fun p => p.closing ∨ mayChange s p i ∨ ∃ a, p = .byte a) s t
  memoryForm : Memory.wf s.unlisted s.mem → Memory.wf t.unlisted t.mem

/-! ### Frames of the shared operations -/

theorem unchanged_complete (s : State) : UnchangedBut Piece.closing s s.complete := by
  apply UnchangedBut.of_fields <;> first | exact fun _ => rfl | exact fun _ _ => rfl | exact fun _ _ _ => rfl | skip
  all_goals
    intro h
    exact absurd (by simp [Piece.closing]) h

theorem unchanged_completeWaiting (s : State) : UnchangedBut Piece.closing s s.completeWaiting := by
  apply UnchangedBut.of_fields <;> first | exact fun _ => rfl | exact fun _ _ => rfl | exact fun _ _ _ => rfl | skip
  all_goals
    intro h
    exact absurd (by simp [Piece.closing]) h

theorem unchanged_setPc (s : State) (a : Word) : UnchangedBut (· = .pc) s (s.setPc a) := by
  apply UnchangedBut.of_fields <;> first | exact fun _ => rfl | exact fun _ _ => rfl | exact fun _ _ _ => rfl | skip
  exact fun h => absurd rfl h

theorem unchanged_setI (s : State) (a : Word) : UnchangedBut (· = .i) s (s.setI a) := by
  apply UnchangedBut.of_fields <;> first | exact fun _ => rfl | exact fun _ _ => rfl | exact fun _ _ _ => rfl | skip
  exact fun h => absurd rfl h

theorem unchanged_setDt (s : State) (b : Byte) : UnchangedBut (· = .dt) s (s.setDt b) := by
  apply UnchangedBut.of_fields <;> first | exact fun _ => rfl | exact fun _ _ => rfl | exact fun _ _ _ => rfl | skip
  exact fun h => absurd rfl h

theorem unchanged_setSt (s : State) (b : Byte) : UnchangedBut (· = .st) s (s.setSt b) := by
  apply UnchangedBut.of_fields <;> first | exact fun _ => rfl | exact fun _ _ => rfl | exact fun _ _ _ => rfl | skip
  exact fun h => absurd rfl h

/-- A state that differs in its registers alone, and only in those of a set. -/
theorem unchanged_regs {s : State} {c : Reg → Prop} (v : Vector Byte 16)
    (h : ∀ k, ¬c k → v[k] = s.reg k) : UnchangedBut (fun p => ∃ k, c k ∧ p = .reg k) s { s with v := v } := by
  apply UnchangedBut.of_fields <;> first | exact fun _ => rfl | exact fun _ _ => rfl | exact fun _ _ _ => rfl | skip
  exact fun k hk => h k fun hc => hk ⟨k, hc, rfl⟩

theorem unchanged_setReg (s : State) (k : Reg) (b : Byte) : UnchangedBut (· = .reg k) s (s.setReg k b) := by
  refine (unchanged_regs (c := (· = k)) (s.setReg k b).v fun j hj => ?_).mono fun p ⟨j, hj, hp⟩ => hj ▸ hp
  have := s.reg_setReg k b j
  rwa [if_neg hj] at this

theorem unchanged_writeFlagged (s : State) (x : Reg) (r : Byte) (f : Bool) :
    UnchangedBut (fun p => p = .reg x ∨ p = .reg regF) s (s.writeFlagged x r f) := by
  rw [s.writeFlagged_eq]
  refine (unchanged_regs (c := fun k => k = x ∨ k = regF) _ fun j hj => ?_).mono ?_
  · have h := s.reg_writeFlagged x r f j
    rwa [if_neg fun h => hj (.inl h.1), if_neg fun h => hj (.inr h)] at h
  · rintro p ⟨k, rfl | rfl, rfl⟩
    · exact .inl rfl
    · exact .inr rfl

theorem unchanged_setStack (s : State) (k : Vector Word 16) (n : Fin 17) (c : Fin 16 → Prop)
    (h : ∀ j, ¬c j → k[j] = s.stack[j]) :
    UnchangedBut (fun p => p = .sp ∨ ∃ j, c j ∧ p = .stack j) s (s.setStack k n) := by
  apply UnchangedBut.of_fields <;> first | exact fun _ => rfl | exact fun _ _ => rfl | exact fun _ _ _ => rfl | skip
  · exact fun j hj => h j fun hc => hj (.inr ⟨j, hc, rfl⟩)
  · exact fun hp => absurd (.inl rfl) hp

theorem unchanged_redraw (s : State) (fb : Framebuffer) (c : Fin 64 → Fin 32 → Prop)
    (h : ∀ x y, ¬c x y → fb.pixel x y = s.pixel x y) :
    UnchangedBut (fun p => p = .draw ∨ ∃ x y, p = .pixel x y ∧ c x y) s (s.redraw fb) := by
  apply UnchangedBut.of_fields <;> first | exact fun _ => rfl | exact fun _ _ => rfl | exact fun _ _ _ => rfl | skip
  · exact fun x y hc => h x y fun hxy => hc (.inr ⟨x, y, rfl, hxy⟩)
  · exact fun hp => absurd (.inl rfl) hp

theorem unchanged_setMem (s : State) (m : Memory) (c : Nat → Prop)
    (h : ∀ a, ¬c a → Memory.read s.unlisted m a = s.readByte a) :
    UnchangedBut (fun p => ∃ a, c a ∧ p = .byte a) s (s.setMem m) := by
  apply UnchangedBut.of_fields <;> first | exact fun _ => rfl | exact fun _ _ => rfl | exact fun _ _ _ => rfl | skip
  exact fun a ha => h a fun hc => ha ⟨a, hc, rfl⟩

/-- A write of bytes in range changes those bytes alone. -/
theorem unchanged_writeBytes (s : State) (a : Nat) (bs : List Byte) (hm : Memory.wf s.unlisted s.mem)
    (h : a + bs.length ≤ memSize) :
    UnchangedBut (Piece.inRange a bs.length) s (s.writeBytes a bs) := by
  refine (unchanged_setMem s _ (fun b => a ≤ b ∧ b < a + bs.length) fun b hb => ?_).mono ?_
  · exact Memory.read_writeList_outside hm h (by omega)
  · rintro p ⟨b, ⟨h1, h2⟩, rfl⟩
    exact ⟨b - a, by omega, by rw [Nat.add_sub_cancel' h1]⟩

/-! ### The shapes of the meanings -/

theorem waits_false {i : Instr} {s t : State} (h : t.waiting = false) (hi : ∀ x, i ≠ .ldVxK x) :
    t.waiting = true ↔ (∃ x, i = .ldVxK x) ∧ s.key = none := by
  simp [h, hi]

/-- An instruction whose only effect, before the closing status, is on pieces other than memory. -/
theorem effect_of_frame {i : Instr} {s u : State} {c : Piece → Prop} (hi : ∀ x, i ≠ .ldVxK x)
    (h : UnchangedBut c s u) (hc : ∀ p, c p → mayChange s p i) (hm : u.mem = s.mem) (hp : u.params = s.params) :
    ExecEffect i s u.complete where
  event := rfl
  waits := waits_false rfl hi
  frame _ := (h.mono fun p hp => .inr (hc p hp)).trans ((unchanged_complete u).mono fun _ hp => .inl hp)
  frameButMemory := (h.mono fun p hp => .inr (.inl (hc p hp))).trans ((unchanged_complete u).mono fun _ hp => .inl hp)
  memoryForm hw := by
    simpa [State.unlisted, hm, hp] using hw

/-- An instruction whose only effect, before the closing status, is a write of bytes in range. -/
theorem effect_of_store {i : Instr} {s : State} {bs : List Byte} {n : Nat} (hi : ∀ x, i ≠ .ldVxK x)
    (hl : bs.length = n) (hb : s.i.toNat + n ≤ 4096) (hc : ∀ p : Piece, p.inRange s.i.toNat n → mayChange s p i) :
    ExecEffect i s (s.writeBytes s.i.toNat bs).complete where
  event := rfl
  waits := waits_false rfl hi
  frame hw := by
    have h := unchanged_writeBytes s s.i.toNat bs hw (by rw [hl]; exact hb)
    rw [hl] at h
    exact (h.mono fun p hp => .inr (hc p hp)).trans ((unchanged_complete _).mono fun _ hp => .inl hp)
  frameButMemory := by
    have h := unchanged_setMem s (s.memWritten s.i.toNat bs) (fun _ => True) fun _ h => absurd trivial h
    exact (h.mono fun p ⟨a, _, hp⟩ => .inr (.inr ⟨a, hp⟩)).trans ((unchanged_complete _).mono fun _ hp => .inl hp)
  memoryForm hw := Memory.wf_writeList hw (by rw [hl]; exact hb)

/-! ### The execute phase -/

/-- Where an instruction's check fails, the fault is taken, and nothing else happens (R112, R236). -/
theorem exec_of_fault {i : Instr} {s : State} {c : FaultCode} {a : Word} (h : faultOf s i = some (c, a)) :
    exec i s = .next (s.execFault c a) := by
  cases i with
  | ret =>
    simp only [faultOf] at h
    split at h
    · obtain ⟨rfl, rfl⟩ := Prod.mk.inj (Option.some.inj h)
      simp [exec, execRet, State.pop?_none.2 ‹_›]
    · simp at h
  | call nnn =>
    simp only [faultOf] at h
    split at h
    · obtain ⟨rfl, rfl⟩ := Prod.mk.inj (Option.some.inj h)
      simp [exec, execCall, State.push?_none.2 ‹_›]
    · simp at h
  | drw x y n =>
    obtain ⟨a', h', e⟩ := Option.map_eq_some_iff.1 h
    obtain ⟨rfl, rfl⟩ := Prod.mk.inj e
    simp [exec, execDrw, h']
  | ldBVx x =>
    obtain ⟨a', h', e⟩ := Option.map_eq_some_iff.1 h
    obtain ⟨rfl, rfl⟩ := Prod.mk.inj e
    simp [exec, execLdBVx, h']
  | ldMemVx x =>
    obtain ⟨a', h', e⟩ := Option.map_eq_some_iff.1 h
    obtain ⟨rfl, rfl⟩ := Prod.mk.inj e
    simp [exec, execLdMemVx, h']
  | ldVxMem x =>
    obtain ⟨a', h', e⟩ := Option.map_eq_some_iff.1 h
    obtain ⟨rfl, rfl⟩ := Prod.mk.inj e
    simp [exec, execLdVxMem, h']
  | _ => simp [faultOf] at h

/-- Where an instruction's check passes, it completes, and changes at most the pieces it may change. -/
theorem exec_of_no_fault {i : Instr} {s : State} (h : faultOf s i = none) :
    ∃ t, exec i s = .next t ∧ ExecEffect i s t := by
  cases i with
  | cls =>
    exact ⟨_, rfl, effect_of_frame (by simp) (unchanged_redraw s _ (fun _ _ => True) fun _ _ h => absurd trivial h)
      (fun p hp => hp.imp_right fun ⟨x, y, hp, _⟩ => ⟨x, y, hp⟩) rfl rfl⟩
  | ret =>
    have hne : s.sp.val ≠ 0 := by
      intro e
      simp [faultOf, e] at h
    refine ⟨_, by simp only [exec, execRet, State.pop?_of_pos hne]; rfl, ?_⟩
    refine effect_of_frame (c := fun p => p = .pc ∨ p = .sp) (by simp) ?_ (fun p hp => hp) rfl rfl
    refine UnchangedBut.trans ((unchanged_setStack s s.stack _ (fun _ => False) fun _ _ => rfl).mono ?_)
      ((unchanged_setPc _ _).mono fun p hp => .inl hp)
    rintro p (hp | ⟨_, hf, _⟩)
    · exact .inr hp
    · exact hf.elim
  | jp nnn => exact ⟨_, rfl, effect_of_frame (by simp) (unchanged_setPc s _) (fun p hp => hp) rfl rfl⟩
  | call nnn =>
    have hlt : s.sp.val < 16 := by
      have := s.sp.isLt
      by_contra e
      have : s.sp.val = 16 := by omega
      simp [faultOf, this] at h
    refine ⟨_, by simp only [exec, execCall, State.push?_of_lt hlt]; rfl, ?_⟩
    refine effect_of_frame (c := fun p => mayChange s p (.call nnn)) (by simp) ?_ (fun p hp => hp) rfl rfl
    refine UnchangedBut.trans ((unchanged_setStack s _ _ (fun j => j.val = s.sp.val) fun j hj => ?_).mono ?_)
      ((unchanged_setPc _ _).mono fun p hp => .inl hp)
    · simp [Vector.getElem_set_ne, Ne.symm hj]
    · exact fun p hp => .inr hp
  | seVxNn x nn => exact ⟨_, rfl, effect_of_frame (by simp) (unchanged_setPc s _) (fun p hp => hp) rfl rfl⟩
  | sneVxNn x nn => exact ⟨_, rfl, effect_of_frame (by simp) (unchanged_setPc s _) (fun p hp => hp) rfl rfl⟩
  | seVxVy x y n => exact ⟨_, rfl, effect_of_frame (by simp) (unchanged_setPc s _) (fun p hp => hp) rfl rfl⟩
  | sneVxVy x y n => exact ⟨_, rfl, effect_of_frame (by simp) (unchanged_setPc s _) (fun p hp => hp) rfl rfl⟩
  | ldVxNn x nn => exact ⟨_, rfl, effect_of_frame (by simp) (unchanged_setReg s x _) (fun p hp => hp) rfl rfl⟩
  | addVxNn x nn => exact ⟨_, rfl, effect_of_frame (by simp) (unchanged_setReg s x _) (fun p hp => hp) rfl rfl⟩
  | ldVxVy x y => exact ⟨_, rfl, effect_of_frame (by simp) (unchanged_setReg s x _) (fun p hp => hp) rfl rfl⟩
  | orVxVy x y => exact ⟨_, rfl, effect_of_frame (by simp) (unchanged_setReg s x _) (fun p hp => hp) rfl rfl⟩
  | andVxVy x y => exact ⟨_, rfl, effect_of_frame (by simp) (unchanged_setReg s x _) (fun p hp => hp) rfl rfl⟩
  | xorVxVy x y => exact ⟨_, rfl, effect_of_frame (by simp) (unchanged_setReg s x _) (fun p hp => hp) rfl rfl⟩
  | rnd x nn => exact ⟨_, rfl, effect_of_frame (by simp) (unchanged_setReg s x _) (fun p hp => hp) rfl rfl⟩
  | ldVxDt x => exact ⟨_, rfl, effect_of_frame (by simp) (unchanged_setReg s x _) (fun p hp => hp) rfl rfl⟩
  | addVxVy x y =>
    exact ⟨_, rfl, effect_of_frame (by simp) (unchanged_writeFlagged s x _ _) (fun p hp => hp)
      (by rw [s.writeFlagged_eq]) (by rw [s.writeFlagged_eq])⟩
  | subVxVy x y =>
    exact ⟨_, rfl, effect_of_frame (by simp) (unchanged_writeFlagged s x _ _) (fun p hp => hp)
      (by rw [s.writeFlagged_eq]) (by rw [s.writeFlagged_eq])⟩
  | shrVxVy x y =>
    exact ⟨_, rfl, effect_of_frame (by simp) (unchanged_writeFlagged s x _ _) (fun p hp => hp)
      (by rw [s.writeFlagged_eq]) (by rw [s.writeFlagged_eq])⟩
  | subnVxVy x y =>
    exact ⟨_, rfl, effect_of_frame (by simp) (unchanged_writeFlagged s x _ _) (fun p hp => hp)
      (by rw [s.writeFlagged_eq]) (by rw [s.writeFlagged_eq])⟩
  | shlVxVy x y =>
    exact ⟨_, rfl, effect_of_frame (by simp) (unchanged_writeFlagged s x _ _) (fun p hp => hp)
      (by rw [s.writeFlagged_eq]) (by rw [s.writeFlagged_eq])⟩
  | ldINnn nnn => exact ⟨_, rfl, effect_of_frame (by simp) (unchanged_setI s _) (fun p hp => hp) rfl rfl⟩
  | addIVx x => exact ⟨_, rfl, effect_of_frame (by simp) (unchanged_setI s _) (fun p hp => hp) rfl rfl⟩
  | ldFVx x => exact ⟨_, rfl, effect_of_frame (by simp) (unchanged_setI s _) (fun p hp => hp) rfl rfl⟩
  | jpV0 nnn => exact ⟨_, rfl, effect_of_frame (by simp) (unchanged_setPc s _) (fun p hp => hp) rfl rfl⟩
  | skp x => exact ⟨_, rfl, effect_of_frame (by simp) (unchanged_setPc s _) (fun p hp => hp) rfl rfl⟩
  | sknp x => exact ⟨_, rfl, effect_of_frame (by simp) (unchanged_setPc s _) (fun p hp => hp) rfl rfl⟩
  | ldDtVx x => exact ⟨_, rfl, effect_of_frame (by simp) (unchanged_setDt s _) (fun p hp => hp) rfl rfl⟩
  | ldStVx x => exact ⟨_, rfl, effect_of_frame (by simp) (unchanged_setSt s _) (fun p hp => hp) rfl rfl⟩
  | drw x y n =>
    have hr : s.readCheck n.toNat = none := by simpa [faultOf] using h
    refine ⟨_, by simp only [exec, execDrw, hr]; rfl, ?_⟩
    refine effect_of_frame (c := fun p => mayChange s p (.drw x y n)) (by simp) ?_ (fun p hp => hp) rfl rfl
    refine UnchangedBut.trans ((unchanged_redraw s _
      (Covers (spriteX (s.reg x)) (spriteY (s.reg y)) (s.readBytes s.i.toNat n.toNat))
      fun px py hp => drawSprite_other hp).mono ?_) ((unchanged_setReg _ regF _).mono fun p hp => .inr (.inl hp))
    exact fun p hp => hp.imp_right .inr
  | ldVxK x =>
    cases hk : s.key with
    | none =>
      refine ⟨(s.setPc (s.pc - 2)).completeWaiting, by simp [exec, execLdVxK, hk, pcMux], ?_⟩
      refine ⟨rfl, by simp [hk], fun _ => ?_, ?_, fun hw => hw⟩
      · exact ((unchanged_setPc s _).mono fun p hp => .inr (.inl ⟨hp, hk⟩)).trans
          ((unchanged_completeWaiting _).mono fun p hp => .inl hp)
      · exact ((unchanged_setPc s _).mono fun p hp => .inr (.inl (.inl ⟨hp, hk⟩))).trans
          ((unchanged_completeWaiting _).mono fun p hp => .inl hp)
    | some k =>
      refine ⟨(s.storeKey x k).complete, by simp [exec, execLdVxK, hk], ?_⟩
      have hu : UnchangedBut (fun p => mayChange s p (.ldVxK x)) s (s.storeKey x k) := by
        unfold State.storeKey
        split
        · exact (unchanged_setReg s x _).mono fun p hp => .inr ⟨hp, ‹_›⟩
        · exact UnchangedBut.refl _ s
      refine ⟨rfl, by simp [hk], fun _ => ?_, ?_, fun hw => ?_⟩
      · exact (hu.mono fun p hp => .inr hp).trans ((unchanged_complete _).mono fun p hp => .inl hp)
      · exact (hu.mono fun p hp => .inr (.inl hp)).trans ((unchanged_complete _).mono fun p hp => .inl hp)
      · unfold State.storeKey
        split <;> exact hw
  | ldBVx x =>
    have hr : s.writeCheck 3 = none := by simpa [faultOf] using h
    have hb := writeFault_none.1 hr
    refine ⟨_, by simp only [exec, execLdBVx, hr]; rfl, ?_⟩
    exact effect_of_store (n := 3) (by simp) rfl (by omega) fun p hp => hp
  | ldMemVx x =>
    have hr : s.writeCheck (x.val + 1) = none := by simpa [faultOf] using h
    have hb := writeFault_none.1 hr
    refine ⟨_, by simp only [exec, execLdMemVx, hr]; rfl, ?_⟩
    exact effect_of_store (by simp) (s.length_regBytes x) (by omega) fun p hp => hp
  | ldVxMem x =>
    have hr : s.readCheck (x.val + 1) = none := by simpa [faultOf] using h
    refine ⟨_, by simp only [exec, execLdVxMem, hr]; rfl, ?_⟩
    have hl := s.length_readBytes s.i.toNat (x.val + 1)
    have hx := x.isLt
    refine effect_of_frame (c := fun p => ∃ k : Reg, k ≤ x ∧ p = .reg k) (by simp) ?_ (fun p hp => hp)
      (by rw [State.loadRegs_eq]) (by rw [State.loadRegs_eq])
    rw [State.loadRegs_eq]
    refine unchanged_regs _ fun j hj => ?_
    have hj' : x.val < j.val := Nat.lt_of_not_le hj
    have e := s.reg_loadRegs 0 (s.readBytes s.i.toNat (x.val + 1)) (by omega) j
    rwa [if_pos (Nat.zero_le _), List.getElem?_eq_none (by omega)] at e

/-- The execute phase always answers a next state. -/
theorem exec_answers (i : Instr) (s : State) : ∃ t, exec i s = .next t := by
  cases h : faultOf s i with
  | none => exact (exec_of_no_fault h).imp fun _ ht => ht.1
  | some p => exact ⟨_, exec_of_fault h⟩

/-- Everything an execute phase that answers `t` can have done: taken the fault of its check, or its effect. -/
theorem exec_cases {i : Instr} {s t : State} (h : exec i s = .next t) :
    (∃ c a, faultOf s i = some (c, a) ∧ t = s.execFault c a) ∨ (faultOf s i = none ∧ ExecEffect i s t) := by
  cases hf : faultOf s i with
  | none =>
    obtain ⟨u, hu, he⟩ := exec_of_no_fault hf
    rw [h] at hu
    cases hu
    exact .inr ⟨rfl, he⟩
  | some p =>
    have := exec_of_fault hf
    rw [h] at this
    cases this
    exact .inl ⟨p.1, p.2, rfl, rfl⟩

end Sys2Proof.Machine
end

