-- ==== Sys2Proof/Laws/Step.lean ====
section
/-! SUPPORT. Everything one step request can do, said once (40_step_and_control_flow.md R110, R111). -/

namespace Sys2Proof.Machine

/-! ### The fetch (R62, R65) -/

theorem State.fetchCheck_none {s : State} : s.fetchCheck = none ↔ s.pc.toNat ≤ 4094 := by
  rw [State.fetchCheck, boundsFault_none]
  omega

theorem State.fetchCheck_of_past {s : State} (h : 4094 < s.pc.toNat) :
    s.fetchCheck = some (outOfRangeAddr s.pc.toNat) := boundsFault_of_past (by decide) (by omega)

/-- The fetched word, as a number: the byte at PC is the high one (R62). -/
theorem State.fetchWord_toNat (s : State) :
    s.fetchWord.toNat = (s.readByte s.pc.toNat).toNat * 256 + (s.readByte (s.pc.toNat + 1)).toNat :=
  wordOfBytes_toNat _ _

theorem State.fetchWord_eq {s : State} {w : Word}
    (h : w.toNat = (s.readByte s.pc.toNat).toNat * 256 + (s.readByte (s.pc.toNat + 1)).toNat) : s.fetchWord = w :=
  BitVec.eq_of_toNat_eq (by rw [s.fetchWord_toNat, h])

/-! ### The step, case by case -/

/-- The word a state fetches depends on its memory, the parameters and PC alone. -/
theorem State.fetchWord_of_same {s t : State} (hm : t.mem = s.mem) (hp : t.params = s.params) (hpc : t.pc = s.pc) :
    t.fetchWord = s.fetchWord := by
  simp only [State.fetchWord, hpc, State.readByte_of_mem hm hp]

/-- The instruction a state fetches depends on its memory, the parameters and PC alone. -/
theorem State.fetchInstr_of_same {s t : State} (hm : t.mem = s.mem) (hp : t.params = s.params) (hpc : t.pc = s.pc) :
    t.fetchInstr = s.fetchInstr := by
  simp only [State.fetchInstr, hp, State.fetchWord_of_same hm hp hpc]

theorem step_of_halted {s : State} (h : s.halted = true) : step s = .next s.refuse := by
  simp [step, h]

theorem step_of_past {s : State} (hh : s.halted = false) (h : 4094 < s.pc.toNat) :
    step s = .next (s.fetchFault (outOfRangeAddr s.pc.toNat)) := by
  simp [step, hh, State.fetchCheck_of_past h]

theorem step_of_instr {s : State} {i : Instr} (hh : s.halted = false) (hp : s.pc.toNat ≤ 4094)
    (hi : s.fetchInstr = some i) : step s = exec i (s.fetched s.fetchWord) := by
  simp [step, hh, State.fetchCheck_none.2 hp, hi]

theorem step_of_unrecognized {s : State} (hh : s.halted = false) (hp : s.pc.toNat ≤ 4094)
    (hi : s.fetchInstr = none) : step s = .next (s.fetched s.fetchWord).completeUnrecognized := by
  simp [step, hh, State.fetchCheck_none.2 hp, hi]

/-- What a step request that answers `t` did: it was refused, its fetch faulted, its word was unrecognized, its instruction
raised a fault, or its instruction had its effect. -/
inductive StepCase (s t : State) : Prop where
  | refused (halted : s.halted = true) (eq : t = s.refuse)
  | fetchFault (runs : s.halted = false) (past : 4094 < s.pc.toNat)
      (eq : t = s.fetchFault (outOfRangeAddr s.pc.toNat))
  | unrecognized (runs : s.halted = false) (inRange : s.pc.toNat ≤ 4094) (instr : s.fetchInstr = none)
      (eq : t = (s.fetched s.fetchWord).completeUnrecognized)
  | execFault (i : Instr) (c : FaultCode) (a : Word) (runs : s.halted = false) (inRange : s.pc.toNat ≤ 4094)
      (instr : s.fetchInstr = some i) (fault : faultOf (s.fetched s.fetchWord) i = some (c, a))
      (eq : t = (s.fetched s.fetchWord).execFault c a)
  | effect (i : Instr) (runs : s.halted = false) (inRange : s.pc.toNat ≤ 4094) (instr : s.fetchInstr = some i)
      (noFault : faultOf (s.fetched s.fetchWord) i = none) (eff : ExecEffect i (s.fetched s.fetchWord) t)

theorem step_cases {s t : State} (h : step s = .next t) : StepCase s t := by
  by_cases hh : s.halted = true
  · rw [step_of_halted hh] at h
    cases h
    exact .refused hh rfl
  · have hr : s.halted = false := by simpa using hh
    by_cases hp : 4094 < s.pc.toNat
    · rw [step_of_past hr hp] at h
      cases h
      exact .fetchFault hr hp rfl
    · have hp' : s.pc.toNat ≤ 4094 := by omega
      cases hi : s.fetchInstr with
      | none =>
        rw [step_of_unrecognized hr hp' hi] at h
        cases h
        exact .unrecognized hr hp' hi rfl
      | some i =>
        rw [step_of_instr hr hp' hi] at h
        rcases exec_cases h with ⟨c, a, hf, e⟩ | ⟨hf, he⟩
        · exact .execFault i c a hr hp' hi hf e
        · exact .effect i hr hp' hi hf he

/-! ### Frames of a step -/

theorem unchanged_refuse (s : State) : UnchangedBut Piece.closing s s.refuse := by
  apply UnchangedBut.of_fields <;> first | exact fun _ => rfl | exact fun _ _ => rfl | exact fun _ _ _ => rfl | skip
  exact fun h => absurd (by simp [Piece.closing]) h

theorem unchanged_completeUnrecognized (s : State) : UnchangedBut Piece.closing s s.completeUnrecognized := by
  apply UnchangedBut.of_fields <;> first | exact fun _ => rfl | exact fun _ _ => rfl | exact fun _ _ _ => rfl | skip
  all_goals
    intro h
    exact absurd (by simp [Piece.closing]) h

theorem unchanged_fetched (s : State) (w : Word) :
    UnchangedBut (fun p => p = .pc ∨ p = .lastOp ∨ p = .rndIndex) s (s.fetched w) := by
  apply UnchangedBut.of_fields <;> first | exact fun _ => rfl | exact fun _ _ => rfl | exact fun _ _ _ => rfl | skip
  all_goals
    intro h
    exact absurd (by simp) h

/-- The pieces every performed step may write whatever its instruction: the fetch's and a fault's. -/
def Piece.ofEveryStep (p : Piece) : Prop := p.faultEntry ∨ p = .pc ∨ p = .lastOp ∨ p = .rndIndex

/-- A step changes the pieces every step may write, and those its instruction may change, but memory. -/
theorem step_frame_but_memory {s t : State} (h : step s = .next t) :
    UnchangedBut (fun p => p.ofEveryStep ∨
      (∃ i, s.fetchInstr = some i ∧ mayChange (s.fetched s.fetchWord) p i) ∨ ∃ a, p = .byte a) s t := by
  have hf := (unchanged_fetched s s.fetchWord).mono (c' := fun p => p.ofEveryStep ∨
    (∃ i, s.fetchInstr = some i ∧ mayChange (s.fetched s.fetchWord) p i) ∨ ∃ a, p = .byte a)
    fun p hp => .inl (.inr hp)
  rcases step_cases h with ⟨_, rfl⟩ | ⟨_, _, rfl⟩ | ⟨_, _, _, rfl⟩ | ⟨i, c, a, _, _, hi, _, rfl⟩ | ⟨i, _, _, hi, _, he⟩
  · exact (unchanged_refuse s).mono fun p hp => .inl (.inl (.inl hp))
  · exact (s.takeFault_unchanged _ _ _).mono fun p hp => .inl (.inl hp)
  · exact hf.trans ((unchanged_completeUnrecognized _).mono fun p hp => .inl (.inl (.inl hp)))
  · exact hf.trans ((State.takeFault_unchanged _ _ _ _).mono fun p hp => .inl (.inl hp))
  · refine hf.trans (he.frameButMemory.mono ?_)
    rintro p (hp | hp | hp)
    · exact .inl (.inl (.inl hp))
    · exact .inr (.inl ⟨i, hi, hp⟩)
    · exact .inr (.inr hp)

/-- A step in canonical memory changes the pieces every step may write, and those its instruction may change. -/
theorem step_frame {s t : State} (hw : Memory.wf s.unlisted s.mem) (h : step s = .next t) :
    UnchangedBut (fun p => p.ofEveryStep ∨
      ∃ i, s.fetchInstr = some i ∧ faultOf (s.fetched s.fetchWord) i = none ∧
        mayChange (s.fetched s.fetchWord) p i) s t := by
  have hf := (unchanged_fetched s s.fetchWord).mono (c' := fun p => p.ofEveryStep ∨
    ∃ i, s.fetchInstr = some i ∧ faultOf (s.fetched s.fetchWord) i = none ∧
      mayChange (s.fetched s.fetchWord) p i)
    fun p hp => .inl (.inr hp)
  rcases step_cases h with ⟨_, rfl⟩ | ⟨_, _, rfl⟩ | ⟨_, _, _, rfl⟩ | ⟨i, c, a, _, _, hi, _, rfl⟩ | ⟨i, _, _, hi, hn, he⟩
  · exact (unchanged_refuse s).mono fun p hp => .inl (.inl (.inl hp))
  · exact (s.takeFault_unchanged _ _ _).mono fun p hp => .inl (.inl hp)
  · exact hf.trans ((unchanged_completeUnrecognized _).mono fun p hp => .inl (.inl (.inl hp)))
  · exact hf.trans ((State.takeFault_unchanged _ _ _ _).mono fun p hp => .inl (.inl hp))
  · refine hf.trans ((he.frame hw).mono ?_)
    rintro p (hp | hp)
    · exact .inl (.inl (.inl hp))
    · exact .inr ⟨i, hi, hn, hp⟩

end Sys2Proof.Machine
end

