-- ==== Sys2Proof/Laws/HostPort.lean ====
section
/-! SUPPORT. Step requests in a row and the events they report (60_exceptions.md R245; 10_state.md R53), and where WAITING can
be 1: what a step does is Laws/Step.lean's concern. -/

namespace Sys2Proof.Machine

/-- One request more in front. -/
theorem stepTimes_succ {s t : State} (h : step s = .next t) (n : Nat) : stepTimes (n + 1) s = stepTimes n t := by
  simp only [stepTimes, h]

/-- One request more in front reports its event first. -/
theorem stepEvents_succ {s t : State} (h : step s = .next t) (n : Nat) :
    stepEvents (n + 1) s = t.lastEvent :: stepEvents n t := by
  simp only [stepEvents, h]

/-- The event of the last request is the one left latched in LAST_EVENT (R53). -/
theorem getLast?_stepEvents {n : Nat} {s t : State} (h : stepTimes (n + 1) s = .next t) :
    (stepEvents (n + 1) s).getLast? = some t.lastEvent := by
  induction n generalizing s with
  | zero =>
    cases hs : step s with
    | next u =>
      rw [stepTimes_succ hs] at h
      cases h
      rw [stepEvents_succ hs]
      rfl
    | fault r => exact nomatch r
    | refused r => simp [stepTimes, hs] at h
  | succ n ih =>
    cases hs : step s with
    | next u =>
      rw [stepTimes_succ hs] at h
      have := ih h
      rw [stepEvents_succ hs, List.getLast?_cons, this]
      rfl
    | fault r => exact nomatch r
    | refused r => simp [stepTimes, hs] at h

/-- Requests one after another: the events of the first ones, then those of the rest. -/
theorem stepEvents_add {m : Nat} {s t : State} (h : stepTimes m s = .next t) (n : Nat) :
    stepEvents (m + n) s = stepEvents m s ++ stepEvents n t := by
  induction m generalizing s with
  | zero =>
    cases h
    simp [stepEvents]
  | succ m ih =>
    cases hs : step s with
    | next u =>
      rw [stepTimes_succ hs] at h
      rw [Nat.succ_add, stepEvents_succ hs, stepEvents_succ hs, ih h, List.cons_append]
    | fault r => exact nomatch r
    | refused r => simp [stepTimes, hs] at h

/-! ### Where WAITING can be 1 (log 6) -/

/-- A core that reports WAITING is about to fetch the FX0A it waits at. -/
def WaitsAtKey (s : State) : Prop :=
  s.waiting = true → s.halted = false ∧ s.pc.toNat ≤ 4094 ∧ ∃ x, s.fetchInstr = some (.ldVxK x)

/-- It depends on the pieces the wait is made of alone. -/
theorem WaitsAtKey.of_same {s t : State} (h : WaitsAtKey s) (hw : t.waiting = s.waiting) (hh : t.halted = s.halted)
    (hm : t.mem = s.mem) (hp : t.params = s.params) (hpc : t.pc = s.pc) : WaitsAtKey t := by
  rw [WaitsAtKey, hw, hh, hpc, State.fetchInstr_of_same hm hp hpc]
  exact h

/-- A core that does not report WAITING. -/
theorem WaitsAtKey.of_not_waiting {s : State} (h : s.waiting = false) : WaitsAtKey s :=
  fun hw => absurd (h.symm.trans hw) Bool.false_ne_true

/-- Such a core fetches no UNRECOGNIZED word: where a word is UNRECOGNIZED, WAITING is 0 already. -/
theorem WaitsAtKey.not_waiting_of_unrecognized {s : State} (h : WaitsAtKey s) (hi : s.fetchInstr = none) :
    s.waiting = false := by
  by_contra hw
  obtain ⟨-, -, x, hx⟩ := h (by simpa using hw)
  simp [hi] at hx

/-- A waiting FX0A leaves the core at the same FX0A. -/
theorem step_of_waiting_key {s : State} {x : Reg} (hh : s.halted = false) (hp : s.pc.toNat ≤ 4094)
    (hi : s.fetchInstr = some (.ldVxK x)) (hk : s.key = none) :
    step s = .next ((s.fetched s.fetchWord).setPc s.pc).completeWaiting := by
  rw [step_of_instr hh hp hi]
  simp [exec, execLdVxK, hk, State.selectPc, pcMux]

/-- Every step request keeps it. -/
theorem step_waitsAtKey {s t : State} (hs : WaitsAtKey s) (h : step s = .next t) : WaitsAtKey t := by
  rcases step_cases h with ⟨_, rfl⟩ | ⟨_, _, rfl⟩ | ⟨_, _, hi, rfl⟩ | ⟨i, c, a, _, _, _, _, rfl⟩ | ⟨i, hr, hp, hi, _, he⟩
  · exact hs.of_same rfl rfl rfl rfl rfl
  · exact .of_not_waiting rfl
  · exact .of_not_waiting (by simp [hs.not_waiting_of_unrecognized hi])
  · exact .of_not_waiting rfl
  · intro hw
    obtain ⟨⟨x, rfl⟩, hk⟩ := he.waits.1 hw
    rw [step_of_waiting_key hr hp hi hk] at h
    cases h
    exact ⟨hr, hp, x, (State.fetchInstr_of_same rfl rfl rfl).trans hi⟩

/-- Step requests in a row keep it. -/
theorem stepTimes_waitsAtKey {n : Nat} {s t : State} (hs : WaitsAtKey s) (h : stepTimes n s = .next t) : WaitsAtKey t := by
  induction n generalizing s with
  | zero =>
    cases h
    exact hs
  | succ n ih =>
    cases hu : step s with
    | next u => exact ih (step_waitsAtKey hs hu) (stepTimes_succ hu n ▸ h)
    | fault r => exact nomatch r
    | refused r => simp [stepTimes, hu] at h

/-- Every host action but LOAD keeps it: only a LOAD over a waiting FX0A can put another word under a core that reports
WAITING. -/
theorem act_waitsAtKey {a : HostAction} {s t : State} (hl : ∀ bytes, a ≠ .load bytes) (hs : WaitsAtKey s)
    (h : act a s = .next t) : WaitsAtKey t := by
  cases a with
  | step => exact step_waitsAtKey hs h
  | frame => exact stepTimes_waitsAtKey (s := s.frameStart) (hs.of_same rfl rfl rfl rfl rfl) h
  | setKey k =>
    cases h
    exact hs.of_same rfl rfl rfl rfl rfl
  | tick =>
    cases h
    exact hs.of_same rfl rfl rfl rfl rfl
  | load bytes => exact absurd rfl (hl bytes)
  | powerOnReset =>
    cases h
    exact .of_not_waiting rfl
  | softReset =>
    cases h
    exact .of_not_waiting rfl

end Sys2Proof.Machine
end

