-- ==== Sys2Proof/Laws/PerInstr.lean ====
section
/-! SUPPORT. The round trip of encoding and decoding, one lemma per instruction (30_encoding.md R98). -/

namespace Sys2Proof.Laws.RoundTrip

/-- A well-formed instruction decodes back from its own word, for both values of `STRICT_59`. -/
def Statement (i : Instr) : Prop :=
  ∀ strict : Bool, i.wellFormed strict = true → decode strict (encode i) = some i

theorem cls : Statement .cls := by intro strict _; cases strict <;> decide

theorem ret : Statement .ret := by intro strict _; cases strict <;> decide

theorem jp (nnn : BitVec 12) : Statement (.jp nnn) := by
  intro strict _
  simp [encode, decode, decodeOp, Op.instr, kindOf, fields_packNnn]

theorem call (nnn : BitVec 12) : Statement (.call nnn) := by
  intro strict _
  simp [encode, decode, decodeOp, Op.instr, kindOf, fields_packNnn]

theorem ldINnn (nnn : BitVec 12) : Statement (.ldINnn nnn) := by
  intro strict _
  simp [encode, decode, decodeOp, Op.instr, kindOf, fields_packNnn]

theorem jpV0 (nnn : BitVec 12) : Statement (.jpV0 nnn) := by
  intro strict _
  simp [encode, decode, decodeOp, Op.instr, kindOf, fields_packNnn]

theorem seVxNn (x : Reg) (nn : Byte) : Statement (.seVxNn x nn) := by
  intro strict _
  simp [encode, decode, decodeOp, Op.instr, kindOf, fields_packXnn]

theorem sneVxNn (x : Reg) (nn : Byte) : Statement (.sneVxNn x nn) := by
  intro strict _
  simp [encode, decode, decodeOp, Op.instr, kindOf, fields_packXnn]

theorem ldVxNn (x : Reg) (nn : Byte) : Statement (.ldVxNn x nn) := by
  intro strict _
  simp [encode, decode, decodeOp, Op.instr, kindOf, fields_packXnn]

theorem addVxNn (x : Reg) (nn : Byte) : Statement (.addVxNn x nn) := by
  intro strict _
  simp [encode, decode, decodeOp, Op.instr, kindOf, fields_packXnn]

theorem rnd (x : Reg) (nn : Byte) : Statement (.rnd x nn) := by
  intro strict _
  simp [encode, decode, decodeOp, Op.instr, kindOf, fields_packXnn]

theorem seVxVy (x y : Reg) (n : BitVec 4) : Statement (.seVxVy x y n) := by
  intro strict h
  simp only [Instr.wellFormed] at h
  simp [encode, decode, decodeOp, Op.instr, kindOf, kind59, fields_packXyn, h]

theorem sneVxVy (x y : Reg) (n : BitVec 4) : Statement (.sneVxVy x y n) := by
  intro strict h
  simp only [Instr.wellFormed] at h
  simp [encode, decode, decodeOp, Op.instr, kindOf, kind59, fields_packXyn, h]

theorem ldVxVy (x y : Reg) : Statement (.ldVxVy x y) := by
  intro strict _
  simp [encode, decode, decodeOp, Op.instr, kindOf, kind8, fields_packXyn]

theorem orVxVy (x y : Reg) : Statement (.orVxVy x y) := by
  intro strict _
  simp [encode, decode, decodeOp, Op.instr, kindOf, kind8, fields_packXyn]

theorem andVxVy (x y : Reg) : Statement (.andVxVy x y) := by
  intro strict _
  simp [encode, decode, decodeOp, Op.instr, kindOf, kind8, fields_packXyn]

theorem xorVxVy (x y : Reg) : Statement (.xorVxVy x y) := by
  intro strict _
  simp [encode, decode, decodeOp, Op.instr, kindOf, kind8, fields_packXyn]

theorem addVxVy (x y : Reg) : Statement (.addVxVy x y) := by
  intro strict _
  simp [encode, decode, decodeOp, Op.instr, kindOf, kind8, fields_packXyn]

theorem subVxVy (x y : Reg) : Statement (.subVxVy x y) := by
  intro strict _
  simp [encode, decode, decodeOp, Op.instr, kindOf, kind8, fields_packXyn]

theorem shrVxVy (x y : Reg) : Statement (.shrVxVy x y) := by
  intro strict _
  simp [encode, decode, decodeOp, Op.instr, kindOf, kind8, fields_packXyn]

theorem subnVxVy (x y : Reg) : Statement (.subnVxVy x y) := by
  intro strict _
  simp [encode, decode, decodeOp, Op.instr, kindOf, kind8, fields_packXyn]

theorem shlVxVy (x y : Reg) : Statement (.shlVxVy x y) := by
  intro strict _
  simp [encode, decode, decodeOp, Op.instr, kindOf, kind8, fields_packXyn]

theorem drw (x y : Reg) (n : BitVec 4) : Statement (.drw x y n) := by
  intro strict _
  simp [encode, decode, decodeOp, Op.instr, kindOf, fields_packXyn]

theorem skp (x : Reg) : Statement (.skp x) := by
  intro strict _
  simp [encode, decode, decodeOp, Op.instr, kindOf, kindE, fields_packXnn]

theorem sknp (x : Reg) : Statement (.sknp x) := by
  intro strict _
  simp [encode, decode, decodeOp, Op.instr, kindOf, kindE, fields_packXnn]

theorem ldVxDt (x : Reg) : Statement (.ldVxDt x) := by
  intro strict _
  simp [encode, decode, decodeOp, Op.instr, kindOf, kindF, fields_packXnn]

theorem ldVxK (x : Reg) : Statement (.ldVxK x) := by
  intro strict _
  simp [encode, decode, decodeOp, Op.instr, kindOf, kindF, fields_packXnn]

theorem ldDtVx (x : Reg) : Statement (.ldDtVx x) := by
  intro strict _
  simp [encode, decode, decodeOp, Op.instr, kindOf, kindF, fields_packXnn]

theorem ldStVx (x : Reg) : Statement (.ldStVx x) := by
  intro strict _
  simp [encode, decode, decodeOp, Op.instr, kindOf, kindF, fields_packXnn]

theorem addIVx (x : Reg) : Statement (.addIVx x) := by
  intro strict _
  simp [encode, decode, decodeOp, Op.instr, kindOf, kindF, fields_packXnn]

theorem ldFVx (x : Reg) : Statement (.ldFVx x) := by
  intro strict _
  simp [encode, decode, decodeOp, Op.instr, kindOf, kindF, fields_packXnn]

theorem ldBVx (x : Reg) : Statement (.ldBVx x) := by
  intro strict _
  simp [encode, decode, decodeOp, Op.instr, kindOf, kindF, fields_packXnn]

theorem ldMemVx (x : Reg) : Statement (.ldMemVx x) := by
  intro strict _
  simp [encode, decode, decodeOp, Op.instr, kindOf, kindF, fields_packXnn]

theorem ldVxMem (x : Reg) : Statement (.ldVxMem x) := by
  intro strict _
  simp [encode, decode, decodeOp, Op.instr, kindOf, kindF, fields_packXnn]

end Sys2Proof.Laws.RoundTrip
end

