-- ==== Sys2Proof/Tests/Slice0.lean ====
section
/-! SUPPORT. The model's own tests. Expected values are the spec's: the vectors of 95_test_vectors.md (section L1 or L2 named at
each), the encodings of 30_encoding.md R86, and hand calculation where a vector gives none. -/

namespace Sys2Proof.Tests

open Sys2Proof Sys2Proof.Machine

/-! ### Helpers -/

/-- What `f` shows after one step request at the word `w` placed at PC; none where the step stops. -/
def see {α : Type} (f : State → α) (w : Word) (s : State) : Option α :=
  match step (s.placeWord w) with
  | .next t => some (f t)
  | .fault _ => none
  | .refused _ => none

/-- The power-on state of the vectors (R48). -/
abbrev s0 : State := State.reset

/-- One register set. -/
abbrev v1 (k : Reg) (a : Byte) : State := s0.setReg k a

/-- Two registers set. -/
abbrev v2 (k : Reg) (a : Byte) (j : Reg) (b : Byte) : State := (s0.setReg k a).setReg j b

/-- PC set. -/
abbrev atPc (a : Word) : State := s0.setPc a

/-- I set. -/
abbrev atI (a : Word) : State := s0.setI a

/-- The parameters with `FONT_WRITE_PROTECT` set. -/
abbrev protectedFont : Params := { defaultParams with fontWriteProtect := true }

/-- The parameters with `FLAG_WRITE_LAST` clear. -/
abbrev flagFirst : Params := { defaultParams with flagWriteLast := false }

/-- The parameters with `CONTINUE_AFTER_FAULT` set. -/
abbrev runsOn : Params := { defaultParams with continueAfterFault := true }

/-- The parameters with `FX0A_STORES_KEY` clear. -/
abbrev keepsKey : Params := { defaultParams with fx0aStoresKey := false }

/-- The parameters of a machine whose decode errors keep WAITING (log 6). -/
abbrev keepsWaiting : Params := { defaultParams with decodeErrorKeepsWaiting := true }

/-- A halted state with a fault recorded, as a stack underflow at 0x200 leaves it. -/
abbrev haltedState : State :=
  { s0 with halted := true, faultCode := .stackUnderflow, faultPc := 0x200, pc := 0x202, lastEvent := .fault }

/-- What a fault leaves: code, FAULT_PC, FAULT_ADDR, PC, HALTED. -/
def faultView (t : State) : FaultCode × Word × Word × Word × Bool :=
  (t.faultCode, t.faultPc, t.faultAddr, t.pc, t.halted)

/-! ### WellFormed: the one check, of 5XYN and 9XYN (R91) -/

theorem test_wellFormed_refuses_5XYN : Instr.wellFormed true (.seVxVy 1 2 1) = false := by decide
theorem test_wellFormed_refuses_9XYN : Instr.wellFormed true (.sneVxVy 1 2 1) = false := by decide
theorem test_wellFormed_allows_loose_5XYN : Instr.wellFormed false (.seVxVy 1 2 1) = true := by decide
theorem test_wellFormed_allows_loose_9XYN : Instr.wellFormed false (.sneVxVy 1 2 1) = true := by decide
theorem test_wellFormed_allows_5XY0 : Instr.wellFormed true (.seVxVy 1 2 0) = true := by decide

/-! ### Decoding: every constructor's word, written out bit by bit from the patterns of R86 (words of L2.1) -/

theorem test_decode_cls : decode true 0b0000_0000_1110_0000 = some .cls := by decide
theorem test_decode_ret : decode true 0b0000_0000_1110_1110 = some .ret := by decide
theorem test_decode_jp : decode true 0b0001_0010_0011_0100 = some (.jp 0x234) := by decide
theorem test_decode_call : decode true 0b0010_1111_1111_1111 = some (.call 0xFFF) := by decide
theorem test_decode_seVxNn : decode true 0b0011_1010_0101_1011 = some (.seVxNn 10 0x5B) := by decide
theorem test_decode_sneVxNn : decode true 0b0100_1010_0101_1011 = some (.sneVxNn 10 0x5B) := by decide
theorem test_decode_seVxVy : decode true 0b0101_0001_0010_0000 = some (.seVxVy 1 2 0) := by decide
theorem test_decode_ldVxNn : decode true 0b0110_1010_1111_1111 = some (.ldVxNn 10 0xFF) := by decide
theorem test_decode_addVxNn : decode true 0b0111_1010_0000_0001 = some (.addVxNn 10 0x01) := by decide
theorem test_decode_ldVxVy : decode true 0b1000_1010_1011_0000 = some (.ldVxVy 10 11) := by decide
theorem test_decode_orVxVy : decode true 0b1000_1010_1011_0001 = some (.orVxVy 10 11) := by decide
theorem test_decode_andVxVy : decode true 0b1000_1010_1011_0010 = some (.andVxVy 10 11) := by decide
theorem test_decode_xorVxVy : decode true 0b1000_1010_1011_0011 = some (.xorVxVy 10 11) := by decide
theorem test_decode_addVxVy : decode true 0b1000_1010_1011_0100 = some (.addVxVy 10 11) := by decide
theorem test_decode_subVxVy : decode true 0b1000_1010_1011_0101 = some (.subVxVy 10 11) := by decide
theorem test_decode_shrVxVy : decode true 0b1000_1010_1011_0110 = some (.shrVxVy 10 11) := by decide
theorem test_decode_subnVxVy : decode true 0b1000_1010_1011_0111 = some (.subnVxVy 10 11) := by decide
theorem test_decode_shlVxVy : decode true 0b1000_1010_1011_1110 = some (.shlVxVy 10 11) := by decide
theorem test_decode_sneVxVy : decode true 0b1001_0001_0010_0000 = some (.sneVxVy 1 2 0) := by decide
theorem test_decode_ldINnn : decode true 0b1010_0011_0000_0000 = some (.ldINnn 0x300) := by decide
theorem test_decode_jpV0 : decode true 0b1011_0010_0000_0110 = some (.jpV0 0x206) := by decide
theorem test_decode_rnd : decode true 0b1100_0011_0000_1111 = some (.rnd 3 0x0F) := by decide
theorem test_decode_drw : decode true 0b1101_0000_0001_0001 = some (.drw 0 1 1) := by decide
theorem test_decode_drw_no_rows : decode true 0b1101_0000_0001_0000 = some (.drw 0 1 0) := by decide
theorem test_decode_skp : decode true 0b1110_0011_1001_1110 = some (.skp 3) := by decide
theorem test_decode_sknp : decode true 0b1110_0011_1010_0001 = some (.sknp 3) := by decide
theorem test_decode_ldVxDt : decode true 0b1111_0011_0000_0111 = some (.ldVxDt 3) := by decide
theorem test_decode_ldVxK : decode true 0b1111_0011_0000_1010 = some (.ldVxK 3) := by decide
theorem test_decode_ldDtVx : decode true 0b1111_0011_0001_0101 = some (.ldDtVx 3) := by decide
theorem test_decode_ldStVx : decode true 0b1111_0011_0001_1000 = some (.ldStVx 3) := by decide
theorem test_decode_addIVx : decode true 0b1111_0011_0001_1110 = some (.addIVx 3) := by decide
theorem test_decode_ldFVx : decode true 0b1111_0011_0010_1001 = some (.ldFVx 3) := by decide
theorem test_decode_ldBVx : decode true 0b1111_0011_0011_0011 = some (.ldBVx 3) := by decide
theorem test_decode_ldMemVx : decode true 0b1111_0011_0101_0101 = some (.ldMemVx 3) := by decide
theorem test_decode_ldVxMem : decode true 0b1111_0011_0110_0101 = some (.ldVxMem 3) := by decide

/-- The holes of L2.1. -/
theorem test_decode_holes :
    [0x0000#16, 0x00E1#16, 0x01EE#16, 0x0123#16, 0x5121#16, 0x9121#16, 0x8AB8#16, 0x8AB9#16, 0x8ABA#16, 0x8ABB#16, 0x8ABC#16,
      0x8ABD#16, 0x8ABF#16, 0xE39F#16, 0xE3A2#16, 0xE300#16, 0xF300#16, 0xF366#16, 0xF3FF#16, 0xFFFF#16].map (decode true) =
    List.replicate 20 none := by decide

theorem test_decode_loose_5XYN : decode false 0x5121 = some (.seVxVy 1 2 1) := by decide
theorem test_decode_loose_9XYN : decode false 0x9121 = some (.sneVxVy 1 2 1) := by decide

/-- The codes of R86 in L2.1, and a field that an UNRECOGNIZED word still carries. -/
theorem test_kind_codes :
    ([0x00E0#16, 0x8ABE#16, 0x9120#16, 0xD011#16, 0xF307#16, 0xF365#16, 0x0000#16].map fun w => (decodeOp true w).kind.code) =
    [1, 18, 19, 23, 26, 34, 0] := by decide
theorem test_fields_of_a_hole : (decodeOp true 0xFFFF).nnn = 0xFFF := by decide

theorem test_bytes_high_first : decodeBytes true [0x12, 0x34, 0x56] = .ok (.jp 0x234, [0x56]) := by decide
theorem test_bytes_truncated : decodeBytes true [0x12] = .error .truncated := by decide
theorem test_bytes_unrecognized : decodeBytes true [0x8A, 0xB9] = .error (.unrecognized 0x8AB9) := by decide
theorem test_encode_bytes : encodeBytes (.drw 0 1 5) = [0xD0, 0x15] := by decide
theorem test_tableWord : decodeTableWord 16 0x8AB4 = some (.addVxVy 10 11) := by decide

/-- A placed word is what the very next step runs, from a halted state with PC past memory too (log 15). -/
theorem test_withFetchWord :
    (match step (({ haltedState with pc := 0xFFFF } : State).withFetchWord 16 0x6A42) with
      | .next t => some (t.lastOp, t.reg 10, t.pc)
      | .fault _ => none
      | .refused _ => none) = some (0x6A42, 0x42, 0x202) := by decide

/-! ### The ALU (L2.2) -/

theorem test_ldVxNn : see (·.reg 15) 0x6F42 s0 = some 0x42 := by decide
theorem test_addVxNn : see (fun t => (t.reg 10, t.reg 15)) 0x7A01 (v2 10 0xFF 15 5) = some (0x00, 5) := by decide
theorem test_addVxNn_vf : see (·.reg 15) 0x7F01 (v1 15 0xFF) = some 0x00 := by decide
theorem test_ldVxVy : see (fun t => (t.reg 0, t.reg 15)) 0x8010 (v2 1 0x33 15 1) = some (0x33, 1) := by decide
theorem test_or : see (fun t => (t.reg 0, t.reg 15)) 0x8011 ((v2 0 0x0F 1 0xF0).setReg 15 1) = some (0xFF, 1) := by decide
theorem test_or_vf : see (·.reg 15) 0x8F11 (v2 15 0x0F 1 0xF0) = some 0xFF := by decide
theorem test_and : see (·.reg 0) 0x8012 (v2 0 0x3C 1 0x0F) = some 0x0C := by decide
theorem test_xor : see (·.reg 0) 0x8013 (v2 0 0xFF 1 0x0F) = some 0xF0 := by decide
theorem test_xor_self : see (·.reg 3) 0x8333 (v1 3 0x90) = some 0x00 := by decide
theorem test_add_carry : see (fun t => (t.reg 10, t.reg 15)) 0x8AB4 (v2 10 0xFF 11 0x01) = some (0x00, 1) := by decide
theorem test_add_vf_source : see (fun t => (t.reg 10, t.reg 15)) 0x8AF4 (v2 10 0x10 15 0x20) = some (0x30, 0) := by decide
theorem test_sub_borrow : see (fun t => (t.reg 10, t.reg 15)) 0x8AB5 (v2 10 0x00 11 0x01) = some (0xFF, 0) := by decide
theorem test_sub_equal : see (fun t => (t.reg 10, t.reg 15)) 0x8AA5 (v1 10 0x90) = some (0x00, 1) := by decide
theorem test_subn : see (fun t => (t.reg 10, t.reg 15)) 0x8AB7 (v2 10 0x05 11 0x07) = some (0x02, 1) := by decide
theorem test_subn_equal : see (fun t => (t.reg 10, t.reg 15)) 0x8AA7 (v1 10 0x90) = some (0x00, 0) := by decide
theorem test_shr : see (fun t => (t.reg 10, t.reg 15)) 0x8AB6 (v2 10 0x81 11 0x55) = some (0x40, 1) := by decide
theorem test_shr_vf : see (·.reg 15) 0x8F06 (v1 15 0x02) = some 0 := by decide
theorem test_shl : see (fun t => (t.reg 10, t.reg 15)) 0x8ABE (v2 10 0x81 11 0x55) = some (0x02, 1) := by decide
theorem test_shl_no_carry : see (fun t => (t.reg 10, t.reg 15)) 0x8ABE (v1 10 0x7F) = some (0xFE, 0) := by decide
theorem test_flag_last : see (·.reg 15) 0x8F15 (v2 15 0x03 1 0x05) = some 0 := by decide
theorem test_flag_first : see (·.reg 15) 0x8F15 { v2 15 0x03 1 0x05 with params := flagFirst } = some 0xFE := by decide

/-- CXNN with a zero mask gives 0 whatever RND is (L2.2: `C300`). -/
theorem test_rnd_zero_mask : see (·.reg 3) 0xC300 (v1 3 0xFF) = some 0 := by
  have h : see (·.reg 3) 0xC300 (v1 3 0xFF) = some (Config.randomByte 1 &&& 0) := rfl
  rw [h]
  simp

/-! ### Control flow (L2.3) -/

theorem test_jp : see State.pc 0x1203 s0 = some 0x203 := by decide
theorem test_jp_self : see State.pc 0x1200 s0 = some 0x200 := by decide
theorem test_call : see (fun t => (t.pc, t.sp, t.stack[0])) 0x220E (atPc 0x208) = some (0x20E, 1, 0x20A) := by decide
theorem test_call_overflow :
    see faultView 0x2400 { atPc 0x300 with sp := 16 } = some (.stackOverflow, 0x300, 0, 0x302, true) := by decide
theorem test_ret :
    see (fun t => (t.pc, t.sp, t.stack[0])) 0x00EE { atPc 0x210 with sp := 1, stack := s0.stack.set 0 0x20A } =
      some (0x20A, 0, 0x20A) := by decide
theorem test_ret_underflow : see faultView 0x00EE (atPc 0x210) = some (.stackUnderflow, 0x210, 0, 0x212, true) := by decide
theorem test_se_imm : see State.pc 0x3312 (v1 3 0x12) = some 0x204 := by decide
theorem test_se_imm_not : see State.pc 0x3312 (v1 3 0x13) = some 0x202 := by decide
theorem test_sne_imm : see State.pc 0x4313 (v1 3 0x12) = some 0x204 := by decide
theorem test_sne_imm_not : see State.pc 0x4312 (v1 3 0x12) = some 0x202 := by decide
theorem test_se_reg : see State.pc 0x5120 (v2 1 7 2 7) = some 0x204 := by decide
theorem test_se_reg_not : see State.pc 0x5120 (v2 1 7 2 8) = some 0x202 := by decide
theorem test_sne_reg : see State.pc 0x9120 (v2 1 7 2 8) = some 0x204 := by decide
theorem test_sne_reg_self : see State.pc 0x9110 (v1 1 7) = some 0x202 := by decide
theorem test_jpV0 : see State.pc 0xB1FF (v1 0 0xFF) = some 0x2FE := by decide
theorem test_jpV0_past : see State.pc 0xBFFF (v1 0 0xFF) = some 0x10FE := by decide
theorem test_fetch_fault :
    (match step (atPc 0xFFF) with
      | .next t => some (faultView t, t.lastOp)
      | .fault _ => none
      | .refused _ => none) = some ((.fetchOutOfRange, 0xFFF, 0x1000, 0xFFF, true), 0) := by decide
theorem test_fetch_top : see State.pc 0x1208 (atPc 0xFFE) = some 0x208 := by decide
theorem test_refused : see State.statusWord 0x00E0 haltedState = some 0x19 := by decide
theorem test_unrecognized :
    see (fun t => (t.pc, t.lastOp, t.statusWord)) 0x8AB9 (atPc 0x20A) = some (0x20C, 0x8AB9, 0x08) := by decide
/-- R44 and R111 by default, the list of R95 where the parameter says so. -/
theorem test_unrecognized_waiting :
    see State.waiting 0x8AB9 { s0 with waiting := true } = some false ∧
    see State.waiting 0x8AB9 { s0 with waiting := true, params := keepsWaiting } = some true := by decide
theorem test_first_fault_kept :
    see (fun t => (t.faultCode, t.halted, t.lastEvent)) 0x2400
      { s0 with sp := 16, params := runsOn, faultCode := .readOutOfRange, faultAddr := 0x1000 } =
      some (.readOutOfRange, false, .fault) := by decide

/-! ### Index and memory (L2.4) -/

theorem test_ldINnn : see State.i 0xAFFF s0 = some 0xFFF := by decide
theorem test_addIVx : see State.i 0xF21E ((atI 0x0FFF).setReg 2 2) = some 0x1001 := by decide
theorem test_addIVx_wraps : see State.i 0xF21E ((atI 0xFFFF).setReg 2 1) = some 0 := by decide
theorem test_ldFVx : see State.i 0xF029 (v1 0 0x0A) = some 0x32 := by decide
theorem test_ldFVx_not_masked : see State.i 0xF029 (v1 0 0xFF) = some 0x4FB := by decide
theorem test_ldBVx : see (fun t => (t.readBytes 0x300 3, t.i)) 0xF033 ((atI 0x300).setReg 0 0xFE) = some ([2, 5, 4], 0x300) := by
  decide
theorem test_ldBVx_font : see faultView 0xF033 { atI 0x4F with params := protectedFont } =
    some (.writeOutOfRange, 0x200, 0x4F, 0x202, true) := by decide
theorem test_ldMemVx :
    see (fun t => (t.readBytes 0x300 3, t.i)) 0xF155 (((atI 0x300).setReg 0 0x11).setReg 1 0x22) =
      some ([0x11, 0x22, 0], 0x300) := by decide
theorem test_ldMemVx_fault : see (fun t => (faultView t, t.readByte 0xFFF)) 0xFF55 ((atI 0xFF1).setReg 14 1) =
    some ((.writeOutOfRange, 0x200, 0x1000, 0x202, true), 0) := by decide
theorem test_ldVxMem : see (fun t => (t.reg 0, t.reg 1, t.reg 4, t.reg 5, t.i)) 0xF465 s0 =
    some (0xF0, 0x90, 0xF0, 0, 0) := by decide
theorem test_ldVxMem_fault : see (fun t => (faultView t, t.reg 0)) 0xFF65 ((atI 0xFF1).setReg 0 7) =
    some ((.readOutOfRange, 0x200, 0x1000, 0x202, true), 7) := by decide

/-! ### Timers and input (L2.5) -/

theorem test_ldVxDt : see (fun t => (t.reg 4, t.dt)) 0xF407 (s0.setDt 0x3C) = some (0x3C, 0x3C) := by decide
theorem test_ldDtVx : see (fun t => (t.dt, t.st)) 0xF315 (v1 3 7) = some (7, 0) := by decide
theorem test_ldStVx : see (fun t => (t.dt, t.st)) 0xF318 (v1 3 0x10) = some (0, 0x10) := by decide
theorem test_tick : ({ s0 with dt := 0, st := 5 } : State).tick.dt = 0 ∧ ({ s0 with dt := 0, st := 5 } : State).tick.st = 4 := by
  decide
theorem test_skp : see State.pc 0xE39E { v1 3 7 with key := some 7 } = some 0x204 := by decide
theorem test_skp_none : see State.pc 0xE39E (v1 3 0) = some 0x202 := by decide
theorem test_sknp : see State.pc 0xE3A1 { v1 3 7 with key := some 7 } = some 0x202 := by decide
theorem test_sknp_wide : see State.pc 0xE3A1 { v1 3 0x17 with key := some 7 } = some 0x204 := by decide
theorem test_ldVxK_waits : see (fun t => (t.pc, t.statusWord)) 0xF30A s0 = some (0x200, 0x04) := by decide
theorem test_ldVxK : see (fun t => (t.pc, t.reg 3, t.waiting, t.key)) 0xF30A { s0 with key := some 7, waiting := true } =
    some (0x202, 7, false, some 7) := by decide
theorem test_ldVxK_no_store : see (fun t => (t.pc, t.reg 3)) 0xF30A { s0 with key := some 7, params := keepsKey } =
    some (0x202, 0) := by decide

/-! ### Display (L2.6) -/

theorem test_cls : see (fun t => (t.pixel 5 5, t.statusWord)) 0x00E0 (s0.redraw (s0.fb.flip 5 5)) = some (false, 0x02) := by decide
theorem test_drw_clips :
    see (fun t => (t.fb[0], t.reg 15, t.draw)) 0xD011 (((atI 0x300).writeBytes 0x300 [0xFF]).setReg 0 0x3C) =
      some (0xF000000000000000, 0, true) := by decide
theorem test_drw_partial_collision :
    see (fun t => (t.fb[0], t.reg 15)) 0xD011 { (atI 0x300).writeBytes 0x300 [0xC0] with fb := s0.fb.flip 0 0 } =
      some (0x2, 1) := by decide

/-! ### Reset and load (L2.7) -/

theorem test_reset_font : s0.readBytes 0 5 = [0xF0, 0x90, 0x90, 0x90, 0xF0] := by decide
theorem test_soft_reset :
    (({ (s0.writeBytes 0x100 [0x55]).writeBytes 0x200 [0x66] with key := some 3, halted := true } : State).softReset.mem,
      ({ s0 with key := some 3 } : State).softReset.key, haltedState.softReset.halted) =
    ([(0x100, 0x55)], some 3, false) := by decide
theorem test_load : (s0.load [0xA3, 0x00]).readBytes 0x1FF 4 = [0, 0xA3, 0, 0] := by decide

/-- The events of two requests: `8AB9` is a decode error, then 00E0 completes (R53); a fault is followed by a refusal (R110). -/
theorem test_events :
    stepEvents 2 (s0.writeBytes 0x200 [0x8A, 0xB9, 0x00, 0xE0]) = [.decodeError, .none] ∧
    stepEvents 2 (s0.placeWord 0x00EE) = [.fault, .refused] := by decide
theorem test_set_key : (({ s0 with key := some 3 } : State).setKey none).key = none := by decide

/-! ### The invariant, and the canonical form of reset's memory -/

theorem test_reset_invariant : StateInv State.reset where
  memory := by decide
  noFault := by decide
  stackFault := by decide
  rangeFault := by decide
  storeFault := by decide
  haltedFault := by decide
  faultHalts := by decide
  faultEvent := by decide
  refusedEvent := by decide
  waitingRuns := by decide

/-- A halted state meets it too. -/
theorem test_halted_invariant : StateInv haltedState where
  memory := by decide
  noFault := by decide
  stackFault := by decide
  rangeFault := by decide
  storeFault := by decide
  haltedFault := by decide
  faultHalts := by decide
  faultEvent := by decide
  refusedEvent := by decide
  waitingRuns := by decide

theorem test_reset_memory_wf : Memory.wf State.reset.unlisted State.reset.mem := by decide

/-! ### Witnesses: a state and operands that meet the hypotheses of each statement, for each of its clauses

Named witness_ and the statement. The statements not named here have no hypothesis: they conclude for every state. -/

/-- The outcome is a next state that `p` holds of. -/
def nextIs (o : Host.Outcome State Fault Refusal) (p : State → Bool) : Bool :=
  match o with
  | .next t => p t
  | .fault _ => false
  | .refused _ => false

theorem witness_DecodeAndEncodeAreInverse :
    Instr.wellFormed true (.drw 15 15 15) = true ∧ Instr.wellFormed false (.seVxVy 15 15 15) = true ∧
    decode true 0xFF65 = some (.ldVxMem 15) := by decide
theorem witness_DecodedInstructionsAreWellFormed : decode false 0x9FFF = some (.sneVxVy 15 15 15) := by decide
theorem witness_UnrecognizedWordsAreTheHolesOfTheMap :
    [0x00E1#16, 0x5121#16, 0x9121#16, 0x8AB8#16, 0xE300#16, 0xF300#16].map (decode true) = List.replicate 6 none := by decide
theorem witness_MemoryWriteChangesOneByte :
    Memory.wf s0.unlisted [(79, 1), (0x300, 5)] ∧ 4095 < 4096 := by decide
theorem witness_CanonicalMemoryIsFixedByItsReads :
    Memory.wf s0.unlisted [(79, 1), (0x300, 5)] ∧
    ∀ a, Memory.read s0.unlisted [(79, 1), (0x300, 5)] a = Memory.read s0.unlisted [(79, 1), (0x300, 5)] a :=
  ⟨by decide, fun _ => rfl⟩

/-- A jump to 0x202 in the last word of memory. -/
abbrev lastWord : State := (atPc 0xFFE).placeWord 0x1202

theorem witness_StepRunsTheDecodedInstruction :
    lastWord.halted = false ∧ lastWord.pc.toNat = 4094 ∧
    (0x1202 : Word).toNat = (lastWord.readByte 4094).toNat * 256 + (lastWord.readByte 4095).toNat ∧
    decode lastWord.params.strict59 0x1202 = some (.jp 0x202) := by decide
theorem witness_UnrecognizedWordIsANoOp :
    s0.halted = false ∧ s0.pc.toNat ≤ 4094 ∧
    (0 : Word).toNat = (s0.readByte s0.pc.toNat).toNat * 256 + (s0.readByte (s0.pc.toNat + 1)).toNat ∧
    decode s0.params.strict59 0 = none ∧ s0.waiting = false ∧ s0.params.decodeErrorKeepsWaiting = false := by decide
theorem witness_UnrecognizedWordIsANoOp_kept :
    ({ s0 with waiting := true, params := keepsWaiting } : State).params.decodeErrorKeepsWaiting = true ∧
    ({ s0 with waiting := true, params := keepsWaiting } : State).fetchInstr = none := by decide
theorem witness_FetchPastTheEndIsAFault : (atPc 4095).halted = false ∧ 4094 < (atPc 4095).pc.toNat := by decide
theorem witness_FetchPastTheEndIsAFault_again :
    ({ haltedState with halted := false, params := runsOn, pc := 0xFFFF } : State).halted = false ∧
    4094 < ({ haltedState with halted := false, params := runsOn, pc := 0xFFFF } : State).pc.toNat := by decide
theorem witness_HaltedCoreRefusesSteps : haltedState.halted = true := by decide
theorem witness_StepKeepsTheInvariant : StateInv s0 ∧ ∃ t, step s0 = .next t := ⟨test_reset_invariant, _, rfl⟩
theorem witness_HostActionsKeepTheInvariant :
    StateInv haltedState ∧ (∃ t, act .softReset haltedState = .next t) ∧ ∃ t, act (.load [0x12, 0x00]) haltedState = .next t :=
  ⟨test_halted_invariant, ⟨_, rfl⟩, _, rfl⟩

/-! Steps that change the piece a whole-machine rule is about. -/

theorem witness_OnlyTimerInstructionsChangeTheTimers :
    nextIs (step ((v1 3 7).placeWord 0xF315)) (·.dt != 0) = true ∧
    nextIs (step ((v1 3 7).placeWord 0xF318)) (·.st != 0) = true := by decide
theorem witness_OnlyClearAndDrawChangeTheDisplay :
    nextIs (step (s0.placeWord 0xD011)) (·.pixel 0 0 != s0.pixel 0 0) = true := by decide
theorem witness_OnlyStoresChangeMemory :
    Memory.wf s0.unlisted (((atI 0xFFD).setReg 0 0xFE).placeWord 0xF033).mem ∧
    nextIs (step (((atI 0xFFD).setReg 0 0xFE).placeWord 0xF033)) (fun t => t.readByte 4095 != s0.readByte 4095) = true ∧
    Memory.wf s0.unlisted (((atI 0xFF0).setReg 15 1).placeWord 0xFF55).mem ∧
    nextIs (step (((atI 0xFF0).setReg 15 1).placeWord 0xFF55)) (fun t => t.readByte 4095 != s0.readByte 4095) = true := by
  decide
theorem witness_OnlyIndexInstructionsChangeI :
    nextIs (step (s0.placeWord 0xA300)) (·.i != 0) = true ∧
    nextIs (step ((v1 3 7).placeWord 0xF31E)) (·.i != 0) = true ∧
    nextIs (step ((v1 3 7).placeWord 0xF329)) (·.i != 0) = true := by decide
theorem witness_OnlyCallAndReturnMoveTheStack :
    nextIs (step (s0.placeWord 0x2300)) (fun t => t.stack[0] != 0 && t.sp != 0) = true ∧
    nextIs (step (({ s0 with sp := 1 } : State).placeWord 0x00EE)) (·.sp != 1) = true := by decide
theorem witness_NoStepChangesKeyOrParameters : ∃ t, step (s0.placeWord 0x00E0) = .next t := ⟨_, rfl⟩
theorem witness_OnlyFlagProducersWriteVfImplicitly :
    nextIs (step ((v2 1 0xFF 2 1).placeWord 0x8124)) (·.reg 15 != 0) = true ∧
    nextIs (step (s0.placeWord 0x6F42)) (·.reg 15 != 0) = true := by decide
theorem witness_RecordedFaultLastsUntilAReset :
    haltedState.faultCode ≠ .none ∧ haltedState.halted = true ∧ ∃ t, act .tick haltedState = .next t :=
  ⟨by decide, by decide, _, rfl⟩

/-- One state for each cause of a fault, with the last operand in range beside it where there is one. -/
theorem witness_FaultsComeOnlyFromTheirCauses :
    [atPc 4095, ({ s0 with sp := 16 } : State).placeWord 0x2400, s0.placeWord 0x00EE, (atI 0xFFF).placeWord 0xD012,
      (atI 0xFF1).placeWord 0xFF65, (atI 0xFFE).placeWord 0xF033, ({ atI 79 with params := protectedFont } : State).placeWord 0xF033,
      (atI 0xFF1).placeWord 0xFF55, ({ atI 79 with params := protectedFont } : State).placeWord 0xF055].map
        (fun s => nextIs (step s) (·.lastEvent == .fault)) = List.replicate 9 true ∧
    [(atI 0xFFE).placeWord 0xD012, (atI 0xFF0).placeWord 0xFF65, (atI 0xFFD).placeWord 0xF033,
      ({ atI 80 with params := protectedFont } : State).placeWord 0xF055].map
        (fun s => nextIs (step s) (·.lastEvent == .fault)) = List.replicate 4 false := by decide

theorem witness_DiagnosticsDoNotFeedBack :
    SameToPrograms s0 { s0 with lastOp := 0x1234, draw := true, waiting := true } ∧ ∃ t, step s0 = .next t := by
  refine ⟨fun p hp => ?_, _, rfl⟩
  cases p <;> first | rfl | exact absurd (by simp [Piece.diagnostic, Piece.closing]) hp

/-! Register operations: the clauses of the flag rules, at X other than 15 and at X = 15 with each order of the writes. -/

theorem witness_AddWritesSumAndCarry : (14 : Reg) ≠ 15 ∧ (15 : Reg) = 15 ∧ s0.params.flagWriteLast = true := by decide
theorem witness_SubtractionsWriteDifferenceAndFlag :
    (14 : Reg) ≠ 15 ∧ (15 : Reg) = 15 ∧ s0.params.flagWriteLast = true := by decide
theorem witness_ShiftsWriteTheBitShiftedOut :
    (14 : Reg) ≠ 15 ∧ (15 : Reg) = 15 ∧ s0.params.flagWriteLast = true ∧
    ({ s0 with params := flagFirst } : State).params.flagWriteLast = false := by decide
theorem witness_FlagWrittenFirstLeavesTheResultInVf :
    ({ s0 with params := flagFirst } : State).params.flagWriteLast = false := by decide
theorem witness_RandomByteIsMasked : ∃ t, exec (.rnd 3 0) s0 = .next t := ⟨_, rfl⟩

/-! Control flow: the stack at its bounds. -/

theorem witness_CallPushesOrOverflows :
    ({ s0 with sp := 15 } : State).sp.val < 16 ∧ ({ s0 with sp := 16 } : State).sp.val = 16 := by decide
theorem witness_ReturnPopsOrUnderflows : 0 < ({ s0 with sp := 1 } : State).sp.val ∧ s0.sp.val = 0 := by decide
theorem witness_ReturnAfterCallComesBack : ({ s0 with sp := 15 } : State).sp.val < 16 := by decide

/-! Memory operations: I at the ends of each clause. -/

theorem witness_StoreDecimalDigitsOrFault :
    Memory.wf s0.unlisted s0.mem ∧ (atI 4093).i.toNat + 2 ≤ 4095 ∧ s0.params.fontWriteProtect = false ∧
    4095 < (atI 4094).i.toNat + 2 ∧ protectedFont.fontWriteProtect = true ∧ 80 ≤ (atI 80).i.toNat ∧ (atI 79).i.toNat < 80 := by
  decide
theorem witness_StoreRegistersOrFault :
    Memory.wf s0.unlisted s0.mem ∧ (atI 4080).i.toNat + (15 : Reg).val ≤ 4095 ∧ s0.params.fontWriteProtect = false ∧
    (0 : Reg) ≤ 15 ∧ 4095 < (atI 4081).i.toNat + (15 : Reg).val ∧ protectedFont.fontWriteProtect = true ∧
    80 ≤ (atI 80).i.toNat ∧ (atI 79).i.toNat < 80 := by decide
theorem witness_LoadRegistersOrFault :
    (atI 4080).i.toNat + (15 : Reg).val ≤ 4095 ∧ (15 : Reg) ≤ 15 ∧ 4095 < (atI 4096).i.toNat + (0 : Reg).val := by decide
theorem witness_LoadAfterStoreRestoresRegisters :
    Memory.wf s0.unlisted (atI 4080).mem ∧ (atI 4080).i.toNat + (15 : Reg).val ≤ 4095 ∧
    (atI 4080).params.fontWriteProtect = false := by decide

/-! Key input. -/

/-- FX0A at 0x200, no key pressed. -/
abbrev keyLoop : State := s0.placeWord 0xF30A

theorem witness_KeyWaitCompletesWithAKey :
    ({ s0 with key := some 0 } : State).key = some 0 ∧ s0.params.fx0aStoresKey = true ∧ keepsKey.fx0aStoresKey = false := by
  decide
theorem witness_KeyWaitHoldsUntilAKey :
    keyLoop.halted = false ∧ keyLoop.pc.toNat ≤ 4094 ∧ keyLoop.fetchInstr = some (.ldVxK 3) ∧ keyLoop.key = none := by decide

/-! Display: no row at any I, the last rows in range, and the first past it; a collision and none. -/

theorem witness_DrawFlipsTheCoveredPixels :
    ((0 : BitVec 4) = 0 ∧ (atI 0xFFFF).i.toNat = 65535) ∧ (atI 4081).i.toNat + (15 : BitVec 4).toNat ≤ 4096 ∧
    ((1 : BitVec 4) ≠ 0 ∧ 4096 < (atI 4096).i.toNat + (1 : BitVec 4).toNat) := by decide
theorem witness_DrawFlipsTheCoveredPixels_collision :
    Covers 63 31 [0x80] 63 31 ∧ ¬Covers 63 31 [0x7F] 0 31 := by
  refine ⟨⟨0, 0, 0x80, rfl, by decide, by decide, rfl, rfl⟩, ?_⟩
  rintro ⟨r, b, row, _, _, _, hx, _⟩
  have : (0 : Nat) = 63 + b := hx
  omega

/-! Reset, load, frames. -/

theorem witness_SoftResetKeepsLowMemoryAndKey : 0x1FF < 0x200 ∧ 0x200 ≤ 0x200 := by decide
theorem witness_LoadWritesTheProgramRegion :
    Memory.wf s0.unlisted s0.mem ∧ (List.replicate 3584 (0 : Byte)).length ≤ 3584 ∧
    3584 < (List.replicate 3585 (0 : Byte)).length := by
  refine ⟨by decide, ?_, ?_⟩ <;> rw [List.length_replicate]
  decide
/-- From power-on, with the default budget of 11: 22 zero bytes from 0x200 on (E8). -/
theorem witness_FrameOverZerosOnlyAdvancesPc :
    s0.halted = false ∧ s0.pc.toNat + 2 * s0.params.frameBudget = 534 ∧
    ∀ k, k < 22 → s0.readByte (0x200 + k) = 0 := by decide
theorem witness_FrameOfAHaltedCoreRefusesItsRequests :
    haltedState.halted = true ∧ 1 ≤ haltedState.params.frameBudget := by decide

end Sys2Proof.Tests
end

/-! ### Which instructions a change of a timer or of VF comes from (10_state.md R32, R36)

Everything a step can change is said once by `step_frame_but_memory`. So a change of a piece that not every step writes names
the fetched instruction, and what is left is to read off `mayChange` which instructions list the piece. -/

namespace Sys2Proof.Machine

/-- The pieces that every step may write, one by one. -/
theorem Piece.ofEveryStep_iff {p : Piece} : p.ofEveryStep ↔ p = .lastEvent ∨ p = .waiting ∨ p = .halted ∨ p = .faultCode ∨
    p = .faultPc ∨ p = .faultAddr ∨ p = .pc ∨ p = .lastOp ∨ p = .rndIndex := by
  simp only [Piece.ofEveryStep, Piece.faultEntry, Piece.closing, or_assoc]

/-- Outside memory and the pieces every step may write, a step changes only a piece that the fetched instruction may change. -/
theorem fetched_mayChange_of_changed {s t : State} {p : Piece} (h : step s = .next t) (hchanged : ¬p.same s t)
    (hstep : ¬p.ofEveryStep) (hbyte : ∀ a, p ≠ .byte a) :
    ∃ i, s.fetchInstr = some i ∧ mayChange (s.fetched s.fetchWord) p i := by
  by_contra hno
  refine hchanged (step_frame_but_memory h p ?_)
  rintro (hp | hp | ⟨a, hp⟩)
  · exact hstep hp
  · exact hno hp
  · exact hbyte a hp

/-! ### The timers (R32, R199) -/

/-- FX15 is the one instruction that may change DT. -/
theorem mayChange_dt {s : State} {i : Instr} : mayChange s .dt i ↔ ∃ x, i = .ldDtVx x := by
  cases i <;> simp [mayChange, Piece.inRange]

/-- FX18 is the one instruction that may change ST. -/
theorem mayChange_st {s : State} {i : Instr} : mayChange s .st i ↔ ∃ x, i = .ldStVx x := by
  cases i <;> simp [mayChange, Piece.inRange]

theorem fetched_of_dt_changed {s t : State} (h : step s = .next t) (hdt : t.dt ≠ s.dt) :
    ∃ x, s.fetchInstr = some (.ldDtVx x) := by
  obtain ⟨i, hi, hmay⟩ := fetched_mayChange_of_changed (p := .dt) h hdt (by simp [Piece.ofEveryStep_iff]) nofun
  obtain ⟨x, rfl⟩ := mayChange_dt.1 hmay
  exact ⟨x, hi⟩

theorem fetched_of_st_changed {s t : State} (h : step s = .next t) (hst : t.st ≠ s.st) :
    ∃ x, s.fetchInstr = some (.ldStVx x) := by
  obtain ⟨i, hi, hmay⟩ := fetched_mayChange_of_changed (p := .st) h hst (by simp [Piece.ofEveryStep_iff]) nofun
  obtain ⟨x, rfl⟩ := mayChange_st.1 hmay
  exact ⟨x, hi⟩

/-- One off, clamped at 0: the subtraction of the naturals. -/
theorem tickDown_toNat (b : Byte) : (tickDown b).toNat = b.toNat - 1 := by
  unfold tickDown
  split <;> bv_omega

theorem unchanged_tick (s : State) : UnchangedBut (fun p => p = .dt ∨ p = .st) s s.tick := by
  intro p hp
  cases p with
  | dt => exact absurd (.inl rfl) hp
  | st => exact absurd (.inr rfl) hp
  | _ => rfl

/-- Settles O16: a changed timer is a piece that only FX15 or FX18 may change, and TICK subtracts one from each. -/
theorem onlyTimerInstructionsChangeTheTimers : Obligations.OnlyTimerInstructionsChangeTheTimers := by
  refine ⟨fun s t h hchanged => ?_,
    fun s => ⟨s.tick, rfl, tickDown_toNat s.dt, tickDown_toNat s.st, unchanged_tick s⟩⟩
  rcases hchanged with hdt | hst
  · exact (fetched_of_dt_changed h hdt).imp fun _ => .inl
  · exact (fetched_of_st_changed h hst).imp fun _ => .inr

/-! ### VF (R22, R36) -/

/-- An instruction that may change VF is a flag producer, DXYN, or has V[15] among its destinations. FX65 loads the registers
up to V[X], so it reaches V[15] only with X = 15. -/
theorem mayWriteVf_of_mayChange {s : State} {i : Instr} (h : mayChange s (.reg 15) i) : mayWriteVf i = true := by
  cases i with
  | ldVxMem x =>
    obtain ⟨k, hk, hp⟩ := h
    obtain rfl := Piece.reg.inj hp
    simpa [mayWriteVf] using Fin.last_le_iff.1 hk
  | _ => simp_all [mayChange, mayWriteVf, Piece.inRange]

/-- Settles O22: a changed VF is a piece that only the instructions of `mayWriteVf` may change. -/
theorem onlyFlagProducersWriteVfImplicitly : Obligations.OnlyFlagProducersWriteVfImplicitly := by
  intro s t h hchanged
  obtain ⟨i, hi, hmay⟩ := fetched_mayChange_of_changed (p := .reg 15) h hchanged (by simp [Piece.ofEveryStep_iff]) nofun
  exact ⟨i, hi, mayWriteVf_of_mayChange hmay⟩

end Sys2Proof.Machine

/-! ### Control flow: the jumps and the skips (40_step_and_control_flow.md R113, R117, R119 to R123)

Each of these instructions takes the PC that the mux selects and closes the step. So its frame is said once, for any new PC, and
what an instruction adds is the value its mux entry has as a natural number. -/

namespace Sys2Proof.Machine

/-! ### The entries of the mux -/

/-- JUMP: a 12-bit address fits. -/
theorem pcMux_jump_toNat (pc : Word) (nnn : BitVec 12) : (pcMux pc (.jump nnn)).toNat = nnn.toNat := by
  simp only [pcMux, zextAddr]
  bv_omega

/-- JUMP_V0: the largest sum is 0x10FE, so it does not wrap. -/
theorem pcMux_jumpV0_toNat (pc : Word) (v0 : Byte) (nnn : BitVec 12) :
    (pcMux pc (.jumpV0 v0 nnn)).toNat = v0.toNat + nnn.toNat := by
  simp only [pcMux, zextByte, zextAddr]
  bv_omega

/-- SKIP or SEQ, by the truth of the condition. -/
theorem skipIf_pc_toNat (s : State) {b : Bool} {c : Prop} [Decidable c] (hb : b = true ↔ c) :
    (s.skipIf b).pc.toNat = skipTarget s c := by
  by_cases hc : c
  · simp [State.skipIf_eq, skipTarget, hb.2 hc, hc, BitVec.toNat_add]
  · simp [State.skipIf_eq, skipTarget, mt hb.1 hc, hc]

/-! ### Instructions that only select the next PC -/

/-- An instruction whose one effect before the closing status is on PC writes PC and nothing else. -/
theorem writesPc_of_selectPc {i : Instr} {target : State → Nat} (sel : State → PcSelect)
    (hexec : ∀ s, exec i s = .next (s.selectPc (sel s)).complete)
    (hpc : ∀ s, (s.selectPc (sel s)).pc.toNat = target s) : WritesPc i target := fun s =>
  have hset : UnchangedBut (fun p => p.closing ∨ p = .pc) s (s.selectPc (sel s)) :=
    (unchanged_setPc s _).mono fun _ => .inr
  ⟨_, hexec s, ⟨rfl, rfl⟩, hpc s, hset.trans ((unchanged_complete _).mono fun _ => .inl)⟩

/-- A skip instruction, with the truth of the Boolean it tests. -/
theorem writesPc_of_skipIf {i : Instr} (b : State → Bool) {c : State → Prop} [∀ s, Decidable (c s)]
    (hexec : ∀ s, exec i s = .next (s.skipIf (b s)).complete) (hb : ∀ s, b s = true ↔ c s) :
    WritesPc i fun s => skipTarget s (c s) :=
  writesPc_of_selectPc (fun s => if b s then .skip else .seq) hexec fun s => skipIf_pc_toNat s (hb s)

/-- Settles O35: 1NNN selects JUMP. -/
theorem jumpGoesToNnn : Obligations.JumpGoesToNnn := fun nnn =>
  writesPc_of_selectPc (fun _ => .jump nnn) (fun _ => rfl) fun s => pcMux_jump_toNat s.pc nnn

/-- Settles O36: 3XNN and 4XNN are skips, on equality and on its negation. -/
theorem skipsOnImmediateCompareVx : Obligations.SkipsOnImmediateCompareVx := fun x nn =>
  ⟨writesPc_of_skipIf (fun s => s.reg x == nn) (fun _ => rfl) fun _ => beq_iff_eq,
    writesPc_of_skipIf (fun s => s.reg x != nn) (fun _ => rfl) fun _ => bne_iff_ne⟩

/-- Settles O37: 5XYN and 9XYN are skips, on equality and on its negation; neither reads N. -/
theorem skipsOnRegistersCompareVxAndVy : Obligations.SkipsOnRegistersCompareVxAndVy := fun x y _ =>
  ⟨writesPc_of_skipIf (fun s => s.reg x == s.reg y) (fun _ => rfl) fun _ => beq_iff_eq,
    writesPc_of_skipIf (fun s => s.reg x != s.reg y) (fun _ => rfl) fun _ => bne_iff_ne⟩

/-- Settles O38: BNNN selects JUMP_V0 with V[0]. -/
theorem jumpWithOffsetAddsV0 : Obligations.JumpWithOffsetAddsV0 := fun nnn =>
  writesPc_of_selectPc (fun s => .jumpV0 (s.reg 0) nnn) (fun _ => rfl) fun s => pcMux_jumpV0_toNat s.pc (s.reg 0) nnn

end Sys2Proof.Machine

/-! ### Register and arithmetic operations (41_alu.md R140 to R147, R149 to R153)

These operations write registers and close the step. An operation without a flag is one `setReg`, a flag-producing one the two
writes of `writeFlagged`; the shape of each is proved once, for any result and any flag. What an operation adds is the value of
its result and of its flag as a natural number. -/

namespace Sys2Proof.Machine

/-- The close of a step adds the closing status to the frame of what came before it. -/
theorem UnchangedBut.complete {c : Piece → Prop} {s u : State} (h : UnchangedBut c s u) :
    UnchangedBut (fun p => p.closing ∨ c p) s u.complete :=
  (h.mono fun _ => .inr).trans ((unchanged_complete u).mono fun _ => .inl)

/-! ### The flags of the sum and the differences -/

theorem addFlag_toNat (a b : Byte) : (flagByte (addFlag a b)).toNat = if a.toNat + b.toNat > 255 then 1 else 0 := by
  simp only [flagByte_toNat, addFlag, decide_eq_true_eq]

/-- 8XY5: equal operands give 1. -/
theorem subFlag_toNat (a b : Byte) : (flagByte (subFlag a b)).toNat = if b.toNat > a.toNat then 0 else 1 := by
  simp only [flagByte_toNat, subFlag, Bool.not_eq_true', decide_eq_false_iff_not, ite_not]

/-- 8XY7: equal operands give 0. -/
theorem subnFlag_toNat (a b : Byte) : (flagByte (subnFlag a b)).toNat = if b.toNat > a.toNat then 1 else 0 := by
  simp only [flagByte_toNat, subnFlag, decide_eq_true_eq]

/-! ### The registers after the two writes (R141) -/

section
variable (s : State) {x : Reg} (r : Byte) (f : Bool)

/-- A destination other than VF holds the result. -/
theorem State.reg_writeFlagged_dest (hx : x ≠ regF) : (s.writeFlagged x r f).reg x = r := by
  rw [s.reg_writeFlagged, if_pos ⟨rfl, .inl hx⟩]

/-- VF holds the flag where it is not the destination, or where the flag is written last. -/
theorem State.reg_writeFlagged_flag (h : x ≠ regF ∨ s.params.flagWriteLast = true) :
    (s.writeFlagged x r f).reg regF = flagByte f := by
  rw [s.reg_writeFlagged, if_neg, if_pos rfl]
  rintro ⟨rfl, hfirst⟩
  rcases h with hx | hlast
  · exact hx rfl
  · simp [hlast] at hfirst

/-- VF as the destination holds the result where the flag is written first. -/
theorem State.reg_writeFlagged_flag_first (h : s.params.flagWriteLast = false) :
    (s.writeFlagged regF r f).reg regF = r := by
  rw [s.reg_writeFlagged, if_pos ⟨rfl, .inr h⟩]

end

/-! ### Instructions that only write registers -/

/-- An instruction whose one effect before the closing status is a write of V[x] writes V[x] and nothing else. -/
theorem writesReg_of_setReg {i : Instr} {x : Reg} {val : State → Nat} (b : State → Byte)
    (hexec : ∀ s, exec i s = .next (s.setReg x (b s)).complete) (hval : ∀ s, (b s).toNat = val s) : WritesReg i x val := by
  refine fun s => ⟨_, hexec s, ⟨rfl, rfl⟩, ?_, (unchanged_setReg s x (b s)).complete⟩
  rw [State.reg_complete, State.reg_setReg, if_pos rfl, hval]

/-- A flag-producing operation, by the values of its result and its flag. -/
theorem writesResultAndFlag_of_writeFlagged {i : Instr} {x : Reg} {r f : State → Nat} (res : State → Byte)
    (flag : State → Bool) (hexec : ∀ s, exec i s = .next (s.writeFlagged x (res s) (flag s)).complete)
    (hres : ∀ s, (res s).toNat = r s) (hflag : ∀ s, (flagByte (flag s)).toNat = f s) : WritesResultAndFlag i x r f := by
  refine fun s => ⟨_, hexec s, ⟨rfl, rfl⟩, fun hx => ⟨?_, ?_⟩, fun _ hlast => ?_,
    (unchanged_writeFlagged s x (res s) (flag s)).complete⟩
  · rw [State.reg_complete, s.reg_writeFlagged_dest _ _ hx, hres]
  · rw [State.reg_complete, s.reg_writeFlagged_flag _ _ (.inl hx), hflag]
  · rw [State.reg_complete, s.reg_writeFlagged_flag _ _ (.inr hlast), hflag]

/-- A flag-producing operation on VF itself, by the value of its result. -/
theorem leavesResultInVf_of_writeFlagged {i : Instr} {r : State → Nat} (res : State → Byte) (flag : State → Bool)
    (hexec : ∀ s, exec i s = .next (s.writeFlagged regF (res s) (flag s)).complete)
    (hres : ∀ s, (res s).toNat = r s) : LeavesResultInVf i r := by
  refine fun s hfirst => ⟨_, hexec s, ⟨rfl, rfl⟩, ?_,
    (unchanged_writeFlagged s regF (res s) (flag s)).complete.mono fun p => Or.imp_right or_self_iff.1⟩
  rw [State.reg_complete, s.reg_writeFlagged_flag_first _ _ hfirst, hres]

/-! ### The operations with a flag -/

/-- Settles O30: the two writes of 8XY4, with the sum and its carry. -/
theorem addWritesSumAndCarry : Obligations.AddWritesSumAndCarry := fun x y =>
  writesResultAndFlag_of_writeFlagged (fun s => addResult (s.reg x) (s.reg y)) (fun s => addFlag (s.reg x) (s.reg y))
    (fun _ => rfl) (fun _ => addResult_toNat _ _) fun _ => addFlag_toNat _ _

/-- Settles O31: the two writes of 8XY5 and of 8XY7, whose results exchange the operands; each has its own flag. -/
theorem subtractionsWriteDifferenceAndFlag : Obligations.SubtractionsWriteDifferenceAndFlag := fun x y =>
  ⟨writesResultAndFlag_of_writeFlagged (fun s => subResult (s.reg x) (s.reg y)) (fun s => subFlag (s.reg x) (s.reg y))
      (fun _ => rfl) (fun _ => subResult_toNat _ _) fun _ => subFlag_toNat _ _,
    writesResultAndFlag_of_writeFlagged (fun s => subResult (s.reg y) (s.reg x)) (fun s => subnFlag (s.reg x) (s.reg y))
      (fun _ => rfl) (fun _ => subResult_toNat _ _) fun _ => subnFlag_toNat _ _⟩

/-- Settles O32: the two writes of 8XY6 and of 8XYE, which read V[X] alone; on VF with the flag first, the result stays. -/
theorem shiftsWriteTheBitShiftedOut : Obligations.ShiftsWriteTheBitShiftedOut := fun x _ =>
  ⟨leavesResultInVf_of_writeFlagged (fun s => shrResult (s.reg 15)) (fun s => shrFlag (s.reg 15))
      (fun _ => rfl) fun _ => shrResult_toNat _,
    leavesResultInVf_of_writeFlagged (fun s => shlResult (s.reg 15)) (fun s => shlFlag (s.reg 15))
      (fun _ => rfl) fun _ => shlResult_toNat _,
    writesResultAndFlag_of_writeFlagged (fun s => shrResult (s.reg x)) (fun s => shrFlag (s.reg x))
      (fun _ => rfl) (fun _ => shrResult_toNat _) fun _ => shrFlag_toNat _,
    writesResultAndFlag_of_writeFlagged (fun s => shlResult (s.reg x)) (fun s => shlFlag (s.reg x))
      (fun _ => rfl) (fun _ => shlResult_toNat _) fun _ => shlFlag_toNat _⟩

/-! ### The operations without a flag -/

/-- Settles O26: 6XNN writes its operand. -/
theorem loadImmediateWritesVx : Obligations.LoadImmediateWritesVx := fun _ nn =>
  writesReg_of_setReg (fun _ => nn) (fun _ => rfl) fun _ => rfl

/-- Settles O27: 7XNN writes the sum of 8XY4, by `setReg` alone. -/
theorem addImmediateWrapsWithoutAFlag : Obligations.AddImmediateWrapsWithoutAFlag := fun x nn =>
  writesReg_of_setReg (fun s => addResult (s.reg x) nn) (fun _ => rfl) fun _ => addResult_toNat _ _

/-- Settles O28: 8XY0 writes V[Y]. -/
theorem copyWritesVyIntoVx : Obligations.CopyWritesVyIntoVx := fun _ y =>
  writesReg_of_setReg (fun s => s.reg y) (fun _ => rfl) fun _ => rfl

/-- Settles O29: the operations of the bytes are those of their values. -/
theorem bitwiseOperationsWriteVxOnly : Obligations.BitwiseOperationsWriteVxOnly := fun x y =>
  ⟨writesReg_of_setReg (fun s => s.reg x ||| s.reg y) (fun _ => rfl) fun _ => BitVec.toNat_or _ _,
    writesReg_of_setReg (fun s => s.reg x &&& s.reg y) (fun _ => rfl) fun _ => BitVec.toNat_and _ _,
    writesReg_of_setReg (fun s => s.reg x ^^^ s.reg y) (fun _ => rfl) fun _ => BitVec.toNat_xor _ _⟩

end Sys2Proof.Machine

/-! ### The index register (42_index_and_memory.md R171 to R173)

These operations write I and close the step. The shape is proved once, for any new value; what an operation adds is that value
as a natural number. -/

namespace Sys2Proof.Machine

/-- An instruction whose one effect before the closing status is a write of I writes I and nothing else. -/
theorem writesI_of_setI {i : Instr} {val : State → Nat} (a : State → Word)
    (hexec : ∀ s, exec i s = .next (s.setI (a s)).complete) (hval : ∀ s, (a s).toNat = val s) : WritesI i val :=
  fun s => ⟨_, hexec s, ⟨rfl, rfl⟩, hval s, (unchanged_setI s (a s)).complete⟩

/-- A 12-bit address keeps its value in a word. -/
theorem zextAddr_toNat (nnn : BitVec 12) : (zextAddr nnn).toNat = nnn.toNat :=
  BitVec.toNat_setWidth_of_le (by decide)

/-- The largest glyph address is 5 * 255 = 1275, so the product does not wrap; V[X] is not masked (R173). -/
theorem glyphAddr_toNat (b : Byte) : (glyphAddr b).toNat = b.toNat * 5 := by
  simp only [glyphAddr, zextByte]
  bv_omega

/-- Settles O42: ANNN and FX29 write I, one with its operand, the other with the glyph address of V[X]. -/
theorem loadIndexAndGlyphAddress : Obligations.LoadIndexAndGlyphAddress :=
  ⟨fun nnn => writesI_of_setI (fun _ => zextAddr nnn) (fun _ => rfl) fun _ => zextAddr_toNat nnn,
    fun x => writesI_of_setI (fun s => glyphAddr (s.reg x)) (fun _ => rfl) fun s => glyphAddr_toNat (s.reg x)⟩

end Sys2Proof.Machine

/-! ### Clearing the display (44_display.md R211)

00E0 redraws with the clear framebuffer and closes the step. The frame needs no more of a redraw than that it touches pixels and
DRAW alone. -/

namespace Sys2Proof.Machine

/-- A redraw with any framebuffer: each pixel may change, and beside them DRAW alone. -/
theorem unchanged_redraw_anyPixel (s : State) (fb : Framebuffer) :
    UnchangedBut (fun p => p = .draw ∨ ∃ x y, p = .pixel x y) s (s.redraw fb) :=
  (unchanged_redraw s fb (fun _ _ => True) fun _ _ h => absurd trivial h).mono
    fun _ => Or.imp_right fun ⟨x, y, hp, _⟩ => ⟨x, y, hp⟩

/-- Settles O52: the new framebuffer is the clear one, whose pixels are all 0; VF is not among the pieces a redraw changes. -/
theorem clearSetsEveryPixelToZero : Obligations.ClearSetsEveryPixelToZero := by
  intro s
  have hframe := (unchanged_redraw_anyPixel s Framebuffer.clear).complete
  have hpixels : ∀ x y, (s.redraw Framebuffer.clear).complete.pixel x y = false := Framebuffer.pixel_clear
  exact ⟨_, rfl, ⟨rfl, rfl⟩, hpixels, rfl, hframe⟩

end Sys2Proof.Machine

/-! ### The opcode map (30_encoding.md R81, R86 to R98)

`kindOf_words` says which words each kind has. So a fact about every decoded word is read off the fixed nibbles of its kind. -/

namespace Sys2Proof

/-! ### Encoding and decoding (R98) -/

/-- An operation record whose kind fits its word stands for an instruction whose encoding is the word. -/
theorem encode_of_kindWords {strict : Bool} {w : Word} {k : OpKind} {i : Instr} (hk : kindWords strict w k)
    (hi : { decodeOp strict w with kind := k }.instr = some i) : encode i = w := by
  cases k with
  | unrecognized => nomatch hi
  | cls | ret =>
    cases hi
    exact hk.symm
  | jp | call | ldI | jpV0 =>
    cases hi
    exact packNnn_fields hk
  | seVxNn | sneVxNn | ldVxNn | addVxNn | rnd =>
    cases hi
    exact packXnn_fields hk rfl
  | skp | sknp | ldVxDt | ldVxK | ldDtVx | ldStVx | addIVx | ldFVx | ldBVx | ldMemVx | ldVxMem =>
    cases hi
    exact packXnn_fields hk.1 hk.2
  | drw =>
    cases hi
    exact packXyn_fields hk rfl
  | seVxVy | sneVxVy =>
    cases hi
    exact packXyn_fields hk.1 rfl
  | ldVxVy | or | and | xor | addVxVy | sub | shr | subn | shl =>
    cases hi
    exact packXyn_fields hk.1 hk.2

/-- Every well-formed instruction decodes back from its word: the round trips of the instructions, together. -/
theorem decode_encode : (i : Instr) → Laws.RoundTrip.Statement i
  | .cls => Laws.RoundTrip.cls
  | .ret => Laws.RoundTrip.ret
  | .jp nnn => Laws.RoundTrip.jp nnn
  | .call nnn => Laws.RoundTrip.call nnn
  | .seVxNn x nn => Laws.RoundTrip.seVxNn x nn
  | .sneVxNn x nn => Laws.RoundTrip.sneVxNn x nn
  | .seVxVy x y n => Laws.RoundTrip.seVxVy x y n
  | .ldVxNn x nn => Laws.RoundTrip.ldVxNn x nn
  | .addVxNn x nn => Laws.RoundTrip.addVxNn x nn
  | .ldVxVy x y => Laws.RoundTrip.ldVxVy x y
  | .orVxVy x y => Laws.RoundTrip.orVxVy x y
  | .andVxVy x y => Laws.RoundTrip.andVxVy x y
  | .xorVxVy x y => Laws.RoundTrip.xorVxVy x y
  | .addVxVy x y => Laws.RoundTrip.addVxVy x y
  | .subVxVy x y => Laws.RoundTrip.subVxVy x y
  | .shrVxVy x y => Laws.RoundTrip.shrVxVy x y
  | .subnVxVy x y => Laws.RoundTrip.subnVxVy x y
  | .shlVxVy x y => Laws.RoundTrip.shlVxVy x y
  | .sneVxVy x y n => Laws.RoundTrip.sneVxVy x y n
  | .ldINnn nnn => Laws.RoundTrip.ldINnn nnn
  | .jpV0 nnn => Laws.RoundTrip.jpV0 nnn
  | .rnd x nn => Laws.RoundTrip.rnd x nn
  | .drw x y n => Laws.RoundTrip.drw x y n
  | .skp x => Laws.RoundTrip.skp x
  | .sknp x => Laws.RoundTrip.sknp x
  | .ldVxDt x => Laws.RoundTrip.ldVxDt x
  | .ldVxK x => Laws.RoundTrip.ldVxK x
  | .ldDtVx x => Laws.RoundTrip.ldDtVx x
  | .ldStVx x => Laws.RoundTrip.ldStVx x
  | .addIVx x => Laws.RoundTrip.addIVx x
  | .ldFVx x => Laws.RoundTrip.ldFVx x
  | .ldBVx x => Laws.RoundTrip.ldBVx x
  | .ldMemVx x => Laws.RoundTrip.ldMemVx x
  | .ldVxMem x => Laws.RoundTrip.ldVxMem x

/-- Settles O2: one direction is the round trip of each instruction, the other the packing of each kind's fields. -/
theorem decodeAndEncodeAreInverse : Obligations.DecodeAndEncodeAreInverse :=
  ⟨fun strict i => decode_encode i strict, fun strict w _ hi => encode_of_kindWords (kindOf_words strict w) hi⟩

/-! ### Well-formedness (R91) -/

/-- An operation record whose kind fits its word stands for a well-formed instruction: the kinds of 5XYN and 9XYN have only
words whose low nibble is admitted. -/
theorem wellFormed_of_kindWords {strict : Bool} {w : Word} {k : OpKind} {i : Instr} (hk : kindWords strict w k)
    (hi : { decodeOp strict w with kind := k }.instr = some i) : i.wellFormed strict = true := by
  cases k with
  | unrecognized => nomatch hi
  | seVxVy | sneVxVy =>
    cases hi
    exact hk.2
  | _ =>
    cases hi
    rfl

/-- Settles O3: the kind the decoder gives a word fits it. -/
theorem decodedInstructionsAreWellFormed : Obligations.DecodedInstructionsAreWellFormed :=
  fun strict w _ hi => wellFormed_of_kindWords (kindOf_words strict w) hi

/-! ### The holes of the map (R88, R91 to R95) -/

theorem kind8_unrecognized {w : Word} (h : 7 < (nField w).toNat) (hE : (nField w).toNat ≠ 0xE) :
    kind8 w = .unrecognized := by
  unfold kind8
  split
  iterate 9 · omega
  rfl

/-- A word of a hole is UNRECOGNIZED, and no other word is. -/
theorem kindOf_unrecognized {strict : Bool} {w : Word} :
    kindOf strict w = .unrecognized ↔ kindWords strict w .unrecognized := by
  refine ⟨fun h => h ▸ kindOf_words strict w, fun h => ?_⟩
  rcases h with ⟨hf, hcls, hret⟩ | ⟨hf | hf, hn⟩ | ⟨hf, hn, hE⟩ | ⟨hf, h9E, hA1⟩ | ⟨hf, hnn⟩
  · rw [kindOf, hf]
    exact (if_neg hcls).trans (if_neg hret)
  · simp [kindOf, hf, kind59, hn]
  · simp [kindOf, hf, kind59, hn]
  · simp [kindOf, hf, kind8_unrecognized hn hE]
  · rw [kindOf, hf]
    exact (if_neg h9E).trans (if_neg hA1)
  · rw [kindOf, hf]
    simp only [kindF, hnn, if_false]
    rfl

theorem nibbleOk_eq_false {strict : Bool} {n : BitVec 4} : nibbleOk strict n = false ↔ strict = true ∧ n.toNat ≠ 0 := by
  simp [nibbleOk, and_comm, ← BitVec.toNat_inj]

/-- Settles O4: the holes of `kindWords`, with each field as a number. -/
theorem unrecognizedWordsAreTheHolesOfTheMap : Obligations.UnrecognizedWordsAreTheHolesOfTheMap := by
  intro strict w
  have hfamily (f : BitVec 4) : familyField w = f ↔ w.toNat / 4096 = f.toNat := by
    rw [← familyField_toNat, BitVec.toNat_inj]
  have hlow (b : Byte) : nnField w = b ↔ w.toNat % 256 = b.toNat := by
    rw [← nnField_toNat, BitVec.toNat_inj]
  rw [decode_none, kindOf_unrecognized]
  simp only [kindWords, nibbleOk_eq_false, hfamily, hlow, nField_toNat, ne_eq, List.mem_cons, List.not_mem_nil, or_false,
    not_or]
  exact or_congr Iff.rfl (or_congr and_left_comm Iff.rfl)

/-! ### The table's words and the operation record -/

/-- Settles O1: closed facts, which the decoder evaluates to. -/
theorem specWordsDecode : Obligations.SpecWordsDecode := by
  unfold Obligations.SpecWordsDecode
  decide

/-- Settles O5: the record holds the slices of the word whatever the kind. -/
theorem operationRecordCarriesEveryField : Obligations.OperationRecordCarriesEveryField := fun _ w =>
  ⟨familyField_toNat w, xField_toNat w, yField_toNat w, nField_toNat w, nnField_toNat w, nnnField_toNat w, rfl⟩

end Sys2Proof

/-! ### Canonical memory (20_memory.md R60, R71; log 10)

In canonical form an address is listed exactly when it does not read as unlisted. So the reads give the listed addresses, and
with them the cells, in their one order. -/

namespace Sys2Proof.Machine

variable {d : Nat → Byte} {m m' : Memory}

/-- Settles O6: the two laws of a write to canonical memory. -/
theorem memoryWriteChangesOneByte : Obligations.MemoryWriteChangesOneByte :=
  fun _ _ _ _ hm ha => ⟨Memory.wf_write hm ha, fun _ => Memory.read_write hm⟩

/-- An address that does not read as unlisted has a cell. -/
theorem Memory.exists_cell_of_read_ne {a : Nat} (h : Memory.read d m a ≠ d a) : ∃ c ∈ m, c.1 = a := by
  by_contra hno
  exact h (Memory.read_unlisted fun c hc hca => hno ⟨c, hc, hca⟩)

/-- The first cell of a canonical memory does not read as unlisted. -/
theorem Memory.read_head_ne {c : Host.Cell} (h : Memory.wf d (c :: m)) : Memory.read d (c :: m) c.1 ≠ d c.1 := by
  rw [Memory.read_cons_self]
  exact (h.2 c List.mem_cons_self).2

/-- No cell of a canonical memory lies below its first. -/
theorem Memory.head_le {c c' : Host.Cell} (h : Memory.wf d (c :: m)) (hc' : c' ∈ c :: m) : c.1 ≤ c'.1 := by
  rcases List.mem_cons.1 hc' with rfl | hc'
  · exact le_rfl
  · exact (Memory.wf_head_lt h c' hc').le

/-- The first address of a canonical memory that reads as another one is no lower than that one's first. -/
theorem Memory.head_le_of_reads {c c' : Host.Cell} (h : Memory.wf d (c :: m)) (h' : Memory.wf d (c' :: m'))
    (hread : ∀ a, Memory.read d (c :: m) a = Memory.read d (c' :: m') a) : c'.1 ≤ c.1 := by
  obtain ⟨e, he, hec⟩ := Memory.exists_cell_of_read_ne (hread c.1 ▸ Memory.read_head_ne h)
  exact hec ▸ Memory.head_le h' he

/-- The cells after the first leave its address unlisted. -/
theorem Memory.read_tail_head {c : Host.Cell} (h : Memory.wf d (c :: m)) : Memory.read d m c.1 = d c.1 :=
  Memory.read_unlisted fun c' hc' => (Memory.wf_head_lt h c' hc').ne'

theorem Memory.eq_of_reads (h : Memory.wf d m) (h' : Memory.wf d m')
    (hread : ∀ a, Memory.read d m a = Memory.read d m' a) : m = m' := by
  induction m generalizing m' with
  | nil =>
    cases m' with
    | nil => rfl
    | cons c' m' => exact absurd (hread c'.1).symm (Memory.read_head_ne h')
  | cons c m ih =>
    cases m' with
    | nil => exact absurd (hread c.1) (Memory.read_head_ne h)
    | cons c' m' =>
      obtain ⟨a, b⟩ := c
      obtain ⟨a', b'⟩ := c'
      obtain rfl : a = a' :=
        Nat.le_antisymm (Memory.head_le_of_reads h' h fun k => (hread k).symm) (Memory.head_le_of_reads h h' hread)
      obtain rfl : b = b' := by simpa [Memory.read] using hread a
      refine congrArg _ (ih (Memory.wf_tail h) (Memory.wf_tail h') fun k => ?_)
      by_cases hk : a = k
      · subst hk
        exact (Memory.read_tail_head h).trans (Memory.read_tail_head h').symm
      · simpa [Memory.read, hk] using hread k

/-- Settles O7: induction on the two lists, whose first addresses must agree. -/
theorem canonicalMemoryIsFixedByItsReads : Obligations.CanonicalMemoryIsFixedByItsReads :=
  fun _ _ _ h h' hread => Memory.eq_of_reads h h' hread

end Sys2Proof.Machine

/-! ### The step (40_step_and_control_flow.md R110, R111)

Each branch of `step` has its equation in the laws; what is left is what that branch's state shows. -/

namespace Sys2Proof.Machine

/-- Settles O8: the step of an instruction, with the word given by its two bytes. -/
theorem stepRunsTheDecodedInstruction : Obligations.StepRunsTheDecodedInstruction := by
  intro s w i hrun hpc hw hi
  obtain rfl := State.fetchWord_eq hw
  exact step_of_instr hrun hpc hi

/-- The advance of a fetch that succeeds does not wrap. -/
theorem State.toNat_pc_add_two {s : State} (h : s.pc.toNat ≤ 4094) : (s.pc + 2).toNat = s.pc.toNat + 2 := by
  bv_omega

/-- Over an UNRECOGNIZED word that leaves WAITING as it was, LAST_EVENT is the one closing status that changes. -/
theorem unchanged_completeUnrecognized_of_waiting {s : State}
    (h : s.params.decodeErrorKeepsWaiting = true ∨ s.waiting = false) :
    UnchangedBut (· = .lastEvent) s s.completeUnrecognized := by
  intro p hp
  by_cases hw : p = .waiting
  · subst hw
    rcases h with h | h <;> simp [Piece.same, h]
  · exact unchanged_completeUnrecognized s p (not_or.2 ⟨hp, hw⟩)

/-- Settles O9: the fetch and the close of a decode error, each with its frame. -/
theorem unrecognizedWordIsANoOp : Obligations.UnrecognizedWordIsANoOp := by
  intro s w hrun hpc hw hnone
  obtain rfl := State.fetchWord_eq hw
  refine ⟨_, step_of_unrecognized hrun hpc hnone, State.toNat_pc_add_two hpc, rfl, rfl, fun hclear => by simp [hclear],
    ?_, fun hkeep => ?_⟩
  · exact ((unchanged_fetched s _).mono fun _ => .inr).trans ((unchanged_completeUnrecognized _).mono fun _ => .inl)
  · exact ((unchanged_fetched s _).mono fun _ => .inr).trans
      ((unchanged_completeUnrecognized_of_waiting (s := s.fetched _) hkeep).mono fun _ => .inl)

/-- Settles O10: the fetch check fails, and the shared entry of a fault records it. -/
theorem fetchPastTheEndIsAFault : Obligations.FetchPastTheEndIsAFault := by
  intro s hrun hpast
  have hrec := s.takeFault_recorded .fetchOutOfRange s.pc (outOfRangeAddr s.pc.toNat)
  rw [outOfRangeAddr_toNat s.pc.isLt] at hrec
  exact ⟨_, step_of_past hrun hpast, hrec⟩

/-- Settles O11: the first branch of the step. -/
theorem haltedCoreRefusesSteps : Obligations.HaltedCoreRefusesSteps := fun _ => step_of_halted

/-- Settles O12: a step is refused, faults in its fetch, closes a decode error, or runs an execute phase, which answers. -/
theorem stepAlwaysAnswersANextState : Obligations.StepAlwaysAnswersANextState := by
  intro s
  by_cases hhalt : s.halted = true
  · exact ⟨_, step_of_halted hhalt⟩
  have hrun : s.halted = false := Bool.eq_false_iff.2 hhalt
  by_cases hpast : 4094 < s.pc.toNat
  · exact ⟨_, step_of_past hrun hpast⟩
  have hpc : s.pc.toNat ≤ 4094 := Nat.le_of_not_lt hpast
  cases hi : s.fetchInstr with
  | none => exact ⟨_, step_of_unrecognized hrun hpc hi⟩
  | some i =>
    rw [step_of_instr hrun hpc hi]
    exact exec_answers i _

end Sys2Proof.Machine

/-! ### Call and return (40_step_and_control_flow.md R114, R116, R118; 60_exceptions.md R231)

A call with room and a return with an entry each have one equation; without, the execute phase takes the fault of its check. -/

namespace Sys2Proof.Machine

/-- The execute phase of an instruction whose check fails records the fault, with the instruction's address. -/
theorem exec_records {i : Instr} {s : State} {c : FaultCode} {a : Word} (h : faultOf s i = some (c, a)) :
    ∃ t, exec i s = .next t ∧ FaultRecorded c (s.pc - 2).toNat a.toNat s t :=
  ⟨_, exec_of_fault h, s.takeFault_recorded c (s.pc - 2) a⟩

/-- With room on the stack the advanced PC is pushed, and PC takes NNN. -/
theorem exec_call_of_lt {s : State} (nnn : BitVec 12) (h : s.sp.val < 16) :
    exec (.call nnn) s = .next ((s.setStack (s.stack.set s.sp.val s.pc h) ⟨s.sp.val + 1, by omega⟩).setPc
      (zextAddr nnn)).complete := by
  simp only [exec, execCall, State.push?_of_lt h]
  rfl

/-- With an entry on the stack PC takes the one on top. -/
theorem exec_ret_of_pos {s : State} (h : 0 < s.sp.val) :
    exec .ret s = .next ((s.setStack s.stack ⟨s.sp.val - 1, by omega⟩).setPc
      (s.stack[s.sp.val - 1]'(by omega))).complete := by
  simp only [exec, execRet, State.pop?_of_pos h.ne']
  rfl

theorem faultOf_call_of_full {s : State} (nnn : BitVec 12) (h : s.sp.val = 16) :
    faultOf s (.call nnn) = some (.stackOverflow, 0) := if_pos h

theorem faultOf_ret_of_empty {s : State} (h : s.sp.val = 0) : faultOf s .ret = some (.stackUnderflow, 0) := if_pos h

/-- Settles O39: the push writes the entry SP names and SP, the jump PC; a full stack fails the check. -/
theorem callPushesOrOverflows : Obligations.CallPushesOrOverflows := by
  refine fun nnn s => ⟨fun h => ⟨_, exec_call_of_lt nnn h, ⟨rfl, rfl⟩, zextAddr_toNat nnn, rfl, by simp, ?_⟩,
    fun h => exec_records (faultOf_call_of_full nnn h)⟩
  have hpush : UnchangedBut (fun p => p = .sp ∨ ∃ j, j = ⟨s.sp.val, h⟩ ∧ p = .stack j) s
      (s.setStack (s.stack.set s.sp.val s.pc h) ⟨s.sp.val + 1, by omega⟩) := by
    refine unchanged_setStack s _ _ _ fun j hj => ?_
    exact Vector.getElem_set_ne _ _ fun e => hj (Fin.eq_of_val_eq e.symm)
  have hentry := hpush.mono (c' := fun p => p = .pc ∨ p = .sp ∨ p = .stack ⟨s.sp.val, h⟩) fun p hp =>
    .inr (hp.imp_right fun ⟨j, hj, hp⟩ => hj ▸ hp)
  have hall := hentry.trans ((unchanged_setPc _ (zextAddr nnn)).mono fun _ => .inl)
  exact hall.complete

/-- Settles O40: the pop moves SP alone, the jump PC; an empty stack fails the check. -/
theorem returnPopsOrUnderflows : Obligations.ReturnPopsOrUnderflows := by
  refine fun s => ⟨fun h => ⟨_, exec_ret_of_pos h, ⟨rfl, rfl⟩, rfl, Nat.sub_add_cancel h, ?_⟩,
    fun h => exec_records (faultOf_ret_of_empty h)⟩
  have hpop := unchanged_setStack s s.stack ⟨s.sp.val - 1, by omega⟩ (fun _ => False) fun _ _ => rfl
  have hsp := hpop.mono (c' := fun p => p = .pc ∨ p = .sp) fun p hp => .inr (hp.resolve_right fun ⟨_, hf, _⟩ => hf)
  have hall := hsp.trans ((unchanged_setPc _ (s.stack[s.sp.val - 1]'(by omega))).mono fun _ => .inl)
  exact hall.complete

/-- Settles O41: the return pops the entry the call pushed. -/
theorem returnAfterCallComesBack : Obligations.ReturnAfterCallComesBack := by
  intro nnn s a h
  refine ⟨_, _, exec_call_of_lt nnn h, exec_ret_of_pos (Nat.succ_pos _), ?_, rfl, fun k hk => ?_⟩
  · simp
  · exact Vector.getElem_set_ne h k.isLt hk.symm

end Sys2Proof.Machine

/-! ### What a step leaves unchanged (10_state.md R26 to R28, R33, R38, R40, R45; 20_memory.md R61)

A change of a piece names the fetched instruction, as for the timers and VF above. KEY, the parameters, HALTED and the fault
registers are no instruction's effect: an execute phase that raises no fault keeps them. -/

namespace Sys2Proof.Machine

variable {s t : State} {i : Instr} {p : Piece}

/-! ### The pieces that are no instruction's effect -/

/-- The pieces that only the host or a fault writes. -/
def Piece.latched (p : Piece) : Prop :=
  p = .key ∨ p = .params ∨ p = .halted ∨ p = .faultCode ∨ p = .faultPc ∨ p = .faultAddr

theorem not_mayChange_latched (hp : p.latched) : ¬mayChange s p i := by
  rcases hp with rfl | rfl | rfl | rfl | rfl | rfl <;> cases i <;> simp [mayChange, Piece.inRange]

theorem ExecEffect.same_of_latched (he : ExecEffect i s t) (hp : p.latched) : p.same s t := by
  refine he.frameButMemory p ?_
  rintro (hclose | hmay | ⟨a, rfl⟩)
  · rcases hclose with rfl | rfl <;> simp [Piece.latched] at hp
  · exact not_mayChange_latched hp hmay
  · simp [Piece.latched] at hp

/-- A step keeps KEY and the parameters, which a fault does not write either. -/
theorem step_keeps_key_params (h : step s = .next t) (hp : p = .key ∨ p = .params) : p.same s t := by
  by_contra hchanged
  have hlatched : p.latched := hp.imp_right .inl
  have hstep : ¬p.ofEveryStep := by rcases hp with rfl | rfl <;> simp [Piece.ofEveryStep_iff]
  have hbyte : ∀ a, p ≠ .byte a := by rcases hp with rfl | rfl <;> simp
  obtain ⟨_, -, hmay⟩ := fetched_mayChange_of_changed h hchanged hstep hbyte
  exact not_mayChange_latched hlatched hmay

theorem unchanged_setKey (s : State) (k : Option (BitVec 4)) : UnchangedBut (· = .key) s (s.setKey k) := by
  intro p hp
  cases p with
  | key => exact absurd rfl hp
  | _ => rfl

/-- Settles O21: KEY and the parameters are not among the pieces a step may change, and SET_KEY writes KEY alone. -/
theorem noStepChangesKeyOrParameters : Obligations.NoStepChangesKeyOrParameters :=
  ⟨fun _ _ h => ⟨step_keeps_key_params (p := .key) h (.inl rfl), step_keeps_key_params (p := .params) h (.inr rfl)⟩,
    fun k s => ⟨s.setKey k, rfl, rfl, unchanged_setKey s k⟩⟩

/-! ### The display, I and the stack -/

theorem mayChange_pixel {x : Fin 64} {y : Fin 32} (h : mayChange s (.pixel x y) i) :
    i = .cls ∨ ∃ vx vy n, i = .drw vx vy n := by
  cases i <;> simp_all [mayChange, Piece.inRange]

/-- Settles O17: only 00E0 and DXYN may change a pixel. -/
theorem onlyClearAndDrawChangeTheDisplay : Obligations.OnlyClearAndDrawChangeTheDisplay := by
  intro s t h x y hchanged
  obtain ⟨i, hi, hmay⟩ := fetched_mayChange_of_changed (p := .pixel x y) h hchanged (by simp [Piece.ofEveryStep_iff]) nofun
  rw [hi]
  exact (mayChange_pixel hmay).imp (congrArg some) fun ⟨vx, vy, n, e⟩ => ⟨vx, vy, n, congrArg some e⟩

theorem mayChange_i (h : mayChange s .i i) : (∃ nnn, i = .ldINnn nnn) ∨ (∃ x, i = .addIVx x) ∨ ∃ x, i = .ldFVx x := by
  cases i <;> simp_all [mayChange, Piece.inRange]

/-- Settles O19: only ANNN, FX1E and FX29 may change I. -/
theorem onlyIndexInstructionsChangeI : Obligations.OnlyIndexInstructionsChangeI := by
  intro s t h hchanged
  obtain ⟨i, hi, hmay⟩ := fetched_mayChange_of_changed (p := .i) h hchanged (by simp [Piece.ofEveryStep_iff]) nofun
  rw [hi]
  exact (mayChange_i hmay).imp (.imp fun _ => congrArg some)
    (.imp (.imp fun _ => congrArg some) (.imp fun _ => congrArg some))

theorem mayChange_stack {k : Fin 16} (h : mayChange s (.stack k) i) : (∃ nnn, i = .call nnn) ∧ k.val = s.sp.val := by
  cases i <;> simp_all [mayChange, Piece.inRange]

theorem mayChange_sp (h : mayChange s .sp i) : (∃ nnn, i = .call nnn) ∨ i = .ret := by
  cases i <;> simp_all [mayChange, Piece.inRange]

/-- A step that changed a piece other than those of every step ran the execute phase of its instruction. -/
theorem exec_of_changed (h : step s = .next t) (hchanged : ¬p.same s t) (hstep : ¬p.ofEveryStep)
    (hi : s.fetchInstr = some i) : exec i (s.fetched s.fetchWord) = .next t := by
  have hrun : s.halted = false := by
    by_contra hhalt
    rw [step_of_halted (Bool.eq_true_of_not_eq_false hhalt)] at h
    cases h
    exact hchanged (unchanged_refuse s p fun hp => hstep (.inl (.inl hp)))
  have hpc : s.pc.toNat ≤ 4094 := by
    by_contra hpast
    rw [step_of_past hrun (Nat.lt_of_not_le hpast)] at h
    cases h
    exact hchanged (s.takeFault_unchanged _ _ _ p fun hp => hstep (.inl hp))
  rwa [step_of_instr hrun hpc hi] at h

/-- A call that moves SP counts one more: where it does not, the stack was full. -/
theorem exec_call_sp {nnn : BitVec 12} (h : exec (.call nnn) s = .next t) (hsp : t.sp ≠ s.sp) : t.sp.val = s.sp.val + 1 := by
  by_cases hlt : s.sp.val < 16
  · rw [exec_call_of_lt nnn hlt] at h
    cases h
    rfl
  · rw [exec_of_fault (faultOf_call_of_full nnn (by omega))] at h
    cases h
    exact absurd rfl hsp

/-- A return that moves SP counts one less: where it does not, the stack was empty. -/
theorem exec_ret_sp (h : exec .ret s = .next t) (hsp : t.sp ≠ s.sp) : t.sp.val + 1 = s.sp.val := by
  by_cases hpos : 0 < s.sp.val
  · rw [exec_ret_of_pos hpos] at h
    cases h
    exact Nat.sub_add_cancel hpos
  · rw [exec_of_fault (faultOf_ret_of_empty (Nat.eq_zero_of_not_pos hpos))] at h
    cases h
    exact absurd rfl hsp

/-- Settles O20: only 2NNN may change an entry, the one SP names, and only 2NNN and 00EE SP, which they move by one. -/
theorem onlyCallAndReturnMoveTheStack : Obligations.OnlyCallAndReturnMoveTheStack := by
  intro s t h
  refine ⟨fun k hchanged => ?_, fun hchanged => ?_⟩
  · obtain ⟨i, hi, hmay⟩ := fetched_mayChange_of_changed (p := .stack k) h hchanged (by simp [Piece.ofEveryStep_iff]) nofun
    obtain ⟨⟨nnn, rfl⟩, hk⟩ := mayChange_stack hmay
    exact ⟨⟨nnn, hi⟩, hk⟩
  · have hstep : ¬Piece.sp.ofEveryStep := by simp [Piece.ofEveryStep_iff]
    obtain ⟨i, hi, hmay⟩ := fetched_mayChange_of_changed (p := .sp) h hchanged hstep nofun
    have hexec := exec_of_changed (p := .sp) h hchanged hstep hi
    rcases mayChange_sp hmay with ⟨nnn, rfl⟩ | rfl
    · exact .inl ⟨⟨nnn, hi⟩, exec_call_sp (s := s.fetched s.fetchWord) hexec hchanged⟩
    · exact .inr ⟨hi, exec_ret_sp (s := s.fetched s.fetchWord) hexec hchanged⟩

/-! ### Memory (R61, R64) -/

/-- An instruction that may change a byte is a store, whose check passed, and the byte is of its range. -/
theorem store_of_mayChange_byte {a : Nat} (h : mayChange s (.byte a) i) (hcheck : faultOf s i = none) :
    ∃ x n, (i = .ldBVx x ∧ n = 3 ∨ i = .ldMemVx x ∧ n = x.val + 1) ∧ s.writeCheck n = none ∧
      Piece.inRange s.i.toNat n (.byte a) := by
  cases i with
  | ldBVx x => exact ⟨x, 3, .inl ⟨rfl, rfl⟩, Option.map_eq_none_iff.1 hcheck, h⟩
  | ldMemVx x => exact ⟨x, x.val + 1, .inr ⟨rfl, rfl⟩, Option.map_eq_none_iff.1 hcheck, h⟩
  | _ => simp [mayChange] at h

/-- Settles O18: only FX33 and FX55 may change a byte, and their check bounds its address. -/
theorem onlyStoresChangeMemory : Obligations.OnlyStoresChangeMemory := by
  intro s t hwf h a hchanged
  have hmay : ∃ i, s.fetchInstr = some i ∧ faultOf (s.fetched s.fetchWord) i = none ∧
      mayChange (s.fetched s.fetchWord) (.byte a) i := by
    by_contra hno
    exact hchanged (step_frame hwf h (.byte a) (not_or.2 ⟨by simp [Piece.ofEveryStep_iff], hno⟩))
  obtain ⟨i, hi, hcheck, hmay⟩ := hmay
  obtain ⟨x, n, hstore, hnone, k, hk, hp⟩ := store_of_mayChange_byte hmay hcheck
  obtain rfl := Piece.byte.inj hp
  have hbound := writeFault_none.1 hnone
  rw [hi]
  exact ⟨by omega, x, n, hstore.imp (.imp_left (congrArg some)) (.imp_left (congrArg some)), Nat.le_add_right _ _,
    Nat.add_lt_add_left hk _⟩

end Sys2Proof.Machine

/-! ### Faults (60_exceptions.md R231 to R237)

The causes of a fault are said once, instruction by instruction, with the address each reports. -/

namespace Sys2Proof.Machine

variable {s t : State} {i : Instr}

/-- Why the execute phase of an instruction takes the fault of the given code at the given address. -/
inductive FaultCause (s : State) : Instr → FaultCode → Word → Prop where
  | overflow (nnn : BitVec 12) (full : s.sp.val = 16) : FaultCause s (.call nnn) .stackOverflow 0
  | underflow (empty : s.sp.val = 0) : FaultCause s .ret .stackUnderflow 0
  | draw (x y : Reg) (n : BitVec 4) (a : Word) (check : s.readCheck n.toNat = some a) :
      FaultCause s (.drw x y n) .readOutOfRange a
  | load (x : Reg) (a : Word) (check : s.readCheck (x.val + 1) = some a) : FaultCause s (.ldVxMem x) .readOutOfRange a
  | digits (x : Reg) (a : Word) (check : s.writeCheck 3 = some a) : FaultCause s (.ldBVx x) .writeOutOfRange a
  | store (x : Reg) (a : Word) (check : s.writeCheck (x.val + 1) = some a) : FaultCause s (.ldMemVx x) .writeOutOfRange a

/-- The fault of a check that only gives the address. -/
theorem check_of_map_eq_some {check : Option Word} {c c' : FaultCode} {a : Word}
    (h : (check.map fun b => (c', b)) = some (c, a)) : check = some a ∧ c' = c := by
  obtain ⟨_, hcheck, he⟩ := Option.map_eq_some_iff.1 h
  cases he
  exact ⟨hcheck, rfl⟩

theorem faultCause_of_faultOf {c : FaultCode} {a : Word} (h : faultOf s i = some (c, a)) : FaultCause s i c a := by
  cases i with
  | call nnn =>
    obtain ⟨hfull, he⟩ := Option.ite_none_right_eq_some.1 h
    cases he
    exact .overflow nnn hfull
  | ret =>
    obtain ⟨hempty, he⟩ := Option.ite_none_right_eq_some.1 h
    cases he
    exact .underflow hempty
  | drw x y n =>
    obtain ⟨hcheck, rfl⟩ := check_of_map_eq_some h
    exact .draw x y n a hcheck
  | ldVxMem x =>
    obtain ⟨hcheck, rfl⟩ := check_of_map_eq_some h
    exact .load x a hcheck
  | ldBVx x =>
    obtain ⟨hcheck, rfl⟩ := check_of_map_eq_some h
    exact .digits x a hcheck
  | ldMemVx x =>
    obtain ⟨hcheck, rfl⟩ := check_of_map_eq_some h
    exact .store x a hcheck
  | _ => nomatch h

/-- A failed read check at I: bytes to read, and the range passes the end. -/
theorem State.readCheck_some {n : Nat} {a : Word} (h : s.readCheck n = some a) :
    n ≠ 0 ∧ 4096 < s.i.toNat + n ∧ 4096 ≤ a.toNat := by
  obtain ⟨hn, hpast, rfl⟩ := boundsFault_some h
  exact ⟨hn, hpast, outOfRangeAddr_toNat s.i.isLt ▸ Nat.le_max_right _ _⟩

/-- A failed write check at I: the range passes the end, or begins in a protected font; the address tells which. -/
theorem State.writeCheck_some {n : Nat} {a : Word} (h : s.writeCheck n = some a) :
    4096 < s.i.toNat + n ∧ 4096 ≤ a.toNat ∨ s.params.fontWriteProtect = true ∧ s.i.toNat < 80 ∧ a.toNat < 80 := by
  obtain ⟨-, ⟨hpast, rfl⟩ | ⟨-, hprotect, hfont, rfl⟩⟩ := writeFault_some h
  · exact .inl ⟨hpast, outOfRangeAddr_toNat s.i.isLt ▸ Nat.le_max_right _ _⟩
  · refine .inr ⟨hprotect, hfont, ?_⟩
    rwa [BitVec.ofNat_toNat, BitVec.setWidth_eq]

/-- Settles O24: a step that reports a fault failed its fetch check, or the check of its instruction. -/
theorem faultsComeOnlyFromTheirCauses : Obligations.FaultsComeOnlyFromTheirCauses := by
  intro s t hrun h hevent
  cases step_cases h with
  | refused hhalt => simp [hrun] at hhalt
  | fetchFault _ hpast => exact .inl hpast
  | unrecognized _ _ _ e =>
    subst e
    nomatch hevent
  | effect i _ _ _ _ he => nomatch he.event.symm.trans hevent
  | execFault i c a _ _ hi hfault =>
    right
    rw [hi]
    cases faultCause_of_faultOf hfault with
    | overflow nnn hfull => exact .inl ⟨⟨nnn, rfl⟩, hfull⟩
    | underflow hempty => exact .inr (.inl ⟨rfl, hempty⟩)
    | draw x y n _ hcheck =>
      obtain ⟨hn, hpast, -⟩ := State.readCheck_some hcheck
      exact .inr (.inr (.inl ⟨x, y, n, rfl, fun e => hn (e ▸ rfl), hpast⟩))
    | load x _ hcheck =>
      obtain ⟨-, hpast, -⟩ := State.readCheck_some hcheck
      exact .inr (.inr (.inr (.inl ⟨x, rfl, Nat.lt_of_succ_lt_succ hpast⟩)))
    | digits x _ hcheck =>
      refine .inr (.inr (.inr (.inr (.inl ⟨x, rfl, ?_⟩))))
      exact (State.writeCheck_some hcheck).imp (fun ⟨hpast, _⟩ => Nat.lt_of_succ_lt_succ hpast)
        fun ⟨hprotect, hfont, _⟩ => ⟨hprotect, hfont⟩
    | store x _ hcheck =>
      refine .inr (.inr (.inr (.inr (.inr ⟨x, rfl, ?_⟩))))
      exact (State.writeCheck_some hcheck).imp (fun ⟨hpast, _⟩ => Nat.lt_of_succ_lt_succ hpast)
        fun ⟨hprotect, hfont, _⟩ => ⟨hprotect, hfont⟩

end Sys2Proof.Machine

/-! ### The fault registers and HALTED over steps and host actions (10_state.md R38, R45; 60_exceptions.md R236, R237)

Everything but a fault and a reset keeps the fault registers, HALTED and the parameters; a fault keeps what is recorded. -/

namespace Sys2Proof.Machine

variable {s t u : State} {i : Instr}

/-- What a fault would write is as before, and so are the parameters. -/
structure KeepsFaults (s t : State) : Prop where
  params : t.params = s.params
  halted : t.halted = s.halted
  code : t.faultCode = s.faultCode
  pc : t.faultPc = s.faultPc
  addr : t.faultAddr = s.faultAddr

theorem KeepsFaults.trans (h : KeepsFaults s t) (h' : KeepsFaults t u) : KeepsFaults s u :=
  ⟨h'.params.trans h.params, h'.halted.trans h.halted, h'.code.trans h.code, h'.pc.trans h.pc, h'.addr.trans h.addr⟩

theorem ExecEffect.keepsFaults (he : ExecEffect i s t) : KeepsFaults s t where
  params := he.same_of_latched (p := .params) (by simp [Piece.latched])
  halted := he.same_of_latched (p := .halted) (by simp [Piece.latched])
  code := he.same_of_latched (p := .faultCode) (by simp [Piece.latched])
  pc := he.same_of_latched (p := .faultPc) (by simp [Piece.latched])
  addr := he.same_of_latched (p := .faultAddr) (by simp [Piece.latched])

theorem keepsFaults_fetched (s : State) (w : Word) : KeepsFaults s (s.fetched w) := ⟨rfl, rfl, rfl, rfl, rfl⟩

theorem keepsFaults_load (s : State) (bytes : List Byte) : KeepsFaults s (s.load bytes) := by
  unfold State.load
  split <;> exact ⟨rfl, rfl, rfl, rfl, rfl⟩

/-- A recorded fault stays, and a halted core stays halted. -/
def FaultLasts (s t : State) : Prop :=
  (s.faultCode ≠ .none → t.faultCode = s.faultCode ∧ t.faultPc = s.faultPc ∧ t.faultAddr = s.faultAddr) ∧
  (s.halted = true → t.halted = true)

theorem FaultLasts.trans (h : FaultLasts s t) (h' : FaultLasts t u) : FaultLasts s u := by
  refine ⟨fun hc => ?_, fun hh => h'.2 (h.2 hh)⟩
  obtain ⟨hcode, hpc, haddr⟩ := h.1 hc
  obtain ⟨hcode', hpc', haddr'⟩ := h'.1 (hcode ▸ hc)
  exact ⟨hcode'.trans hcode, hpc'.trans hpc, haddr'.trans haddr⟩

theorem KeepsFaults.lasts (h : KeepsFaults s t) : FaultLasts s t := ⟨fun _ => ⟨h.code, h.pc, h.addr⟩, h.halted.trans⟩

/-- The entry of a fault keeps the first one (R236). -/
theorem takeFault_lasts (s : State) (c : FaultCode) (p a : Word) : FaultLasts s (s.takeFault c p a) :=
  ⟨fun hc => by simp [hc], fun hh => by simp [hh]⟩

theorem step_faultLasts (h : step s = .next t) : FaultLasts s t := by
  cases step_cases h with
  | refused _ e => exact e ▸ KeepsFaults.lasts ⟨rfl, rfl, rfl, rfl, rfl⟩
  | fetchFault _ _ e => exact e ▸ takeFault_lasts s _ _ _
  | unrecognized _ _ _ e => exact e ▸ KeepsFaults.lasts ⟨rfl, rfl, rfl, rfl, rfl⟩
  | execFault _ c a _ _ _ _ e => exact e ▸ (keepsFaults_fetched s _).lasts.trans (takeFault_lasts _ _ _ _)
  | effect i _ _ _ _ he => exact ((keepsFaults_fetched s _).trans he.keepsFaults).lasts

/-- What every step request keeps, a row of them keeps. -/
theorem stepTimes_keeps {P : State → Prop} (hstep : ∀ {s t : State}, P s → step s = .next t → P t) {n : Nat} (hs : P s)
    (h : stepTimes n s = .next t) : P t := by
  induction n generalizing s with
  | zero =>
    cases h
    exact hs
  | succ n ih =>
    obtain ⟨u, hu⟩ := stepAlwaysAnswersANextState s
    exact ih (hstep hs hu) (stepTimes_succ hu n ▸ h)

/-- Settles O23: each action but a reset keeps the fault registers and HALTED, or is made of steps. -/
theorem recordedFaultLastsUntilAReset : Obligations.RecordedFaultLastsUntilAReset := by
  intro a s t hpower hsoft h
  cases a with
  | step => exact step_faultLasts h
  | frame =>
    have hstart : FaultLasts s s.frameStart := KeepsFaults.lasts ⟨rfl, rfl, rfl, rfl, rfl⟩
    exact stepTimes_keeps (P := FaultLasts s) (fun hs h => hs.trans (step_faultLasts h)) hstart h
  | setKey k =>
    cases h
    exact KeepsFaults.lasts ⟨rfl, rfl, rfl, rfl, rfl⟩
  | tick =>
    cases h
    exact KeepsFaults.lasts ⟨rfl, rfl, rfl, rfl, rfl⟩
  | load bytes =>
    cases h
    exact (keepsFaults_load s bytes).lasts
  | powerOnReset => exact absurd rfl hpower
  | softReset => exact absurd rfl hsoft

end Sys2Proof.Machine

/-! ### The invariant of the architectural state (10_state.md R38, R44, R45, R53, R54; log 6, log 10)

Its clauses on faults say that a recorded fault has an address its code admits. A fault brings such a one, and everything else
but a reset keeps what is recorded; so each step and each action is one of three lemmas: it records a fault, keeps the faults,
or leaves a core without one. -/

namespace Sys2Proof.Machine

variable {s t : State} {i : Instr} {c : FaultCode} {p a : Word}

/-! ### A recorded fault -/

/-- The addresses a fault of the code reports: 0 for the stack, past the end for a read or a fetch, past the end or in a
protected font for a write; NONE is no fault. -/
def FaultAddrFits (protect : Bool) (c : FaultCode) (a : Word) : Prop :=
  match c with
  | .none => False
  | .stackOverflow | .stackUnderflow => a = 0
  | .fetchOutOfRange | .readOutOfRange => 4096 ≤ a.toNat
  | .writeOutOfRange => 4096 ≤ a.toNat ∨ protect = true ∧ a.toNat < 80

theorem ne_none_of_faultAddrFits {protect : Bool} (h : FaultAddrFits protect c a) : c ≠ .none := fun e => by
  subst e
  exact h

/-- What a failed check reports fits its code. -/
theorem faultAddrFits_of_faultOf (h : faultOf s i = some (c, a)) : FaultAddrFits s.params.fontWriteProtect c a := by
  cases faultCause_of_faultOf h with
  | overflow | underflow => rfl
  | draw _ _ _ _ hcheck | load _ _ hcheck => exact (State.readCheck_some hcheck).2.2
  | digits _ _ hcheck | store _ _ hcheck =>
    exact (State.writeCheck_some hcheck).imp And.right fun ⟨hprotect, _, ha⟩ => ⟨hprotect, ha⟩

theorem StateInv.faultAddrFits (h : StateInv s) (hc : s.faultCode ≠ .none) :
    FaultAddrFits s.params.fontWriteProtect s.faultCode s.faultAddr := by
  cases e : s.faultCode with
  | none => exact hc e
  | stackOverflow => exact h.stackFault (.inl e)
  | stackUnderflow => exact h.stackFault (.inr e)
  | fetchOutOfRange => exact h.rangeFault (.inl e)
  | readOutOfRange => exact h.rangeFault (.inr e)
  | writeOutOfRange => exact h.storeFault e

/-! ### Three ways to meet the invariant -/

/-- A state with a recorded fault, reported as the last event. -/
theorem StateInv.of_recordedFault (hm : Memory.wf s.unlisted s.mem)
    (hfit : FaultAddrFits s.params.fontWriteProtect s.faultCode s.faultAddr)
    (hhalts : s.params.continueAfterFault = false → s.halted = true) (hevent : s.lastEvent = .fault)
    (hwaiting : s.waiting = false) : StateInv s where
  memory := hm
  noFault e := absurd e (ne_none_of_faultAddrFits hfit)
  stackFault e := by
    rcases e with e | e <;>
    · rw [e] at hfit
      exact hfit
  rangeFault e := by
    rcases e with e | e <;>
    · rw [e] at hfit
      exact hfit
  storeFault e := by
    rw [e] at hfit
    exact hfit
  haltedFault _ := ne_none_of_faultAddrFits hfit
  faultHalts _ := hhalts
  faultEvent _ := ne_none_of_faultAddrFits hfit
  refusedEvent e := nomatch hevent.symm.trans e
  waitingRuns e := nomatch hwaiting.symm.trans e

/-- A state whose faults are those of a state that meets the invariant; what is left is its memory and its closing status. -/
theorem StateInv.of_keepsFaults (h : StateInv s) (hk : KeepsFaults s t) (hm : Memory.wf t.unlisted t.mem)
    (hfault : t.lastEvent = .fault → s.faultCode ≠ .none) (hrefused : t.lastEvent = .refused → s.halted = true)
    (hwaiting : t.waiting = true → s.halted = false ∧
      (t.lastEvent = .none ∨ s.params.decodeErrorKeepsWaiting = true ∧ t.lastEvent = .decodeError)) : StateInv t where
  memory := hm
  noFault := by simpa only [hk.code, hk.pc, hk.addr] using h.noFault
  stackFault := by simpa only [hk.code, hk.addr] using h.stackFault
  rangeFault := by simpa only [hk.code, hk.addr] using h.rangeFault
  storeFault := by simpa only [hk.code, hk.addr, hk.params] using h.storeFault
  haltedFault := by simpa only [hk.halted, hk.code] using h.haltedFault
  faultHalts := by simpa only [hk.code, hk.params, hk.halted] using h.faultHalts
  faultEvent := by simpa only [hk.code] using hfault
  refusedEvent := by simpa only [hk.halted] using hrefused
  waitingRuns := by simpa only [hk.halted, hk.params] using hwaiting

/-- A state that keeps the closing status too. -/
theorem StateInv.of_keepsStatus (h : StateInv s) (hk : KeepsFaults s t) (hm : Memory.wf t.unlisted t.mem)
    (hevent : t.lastEvent = s.lastEvent) (hwaiting : t.waiting = s.waiting) : StateInv t :=
  h.of_keepsFaults hk hm (fun e => h.faultEvent (hevent ▸ e)) (fun e => h.refusedEvent (hevent ▸ e))
    fun e => hevent ▸ h.waitingRuns (hwaiting ▸ e)

/-- A core that runs, with no fault and nothing reported. -/
theorem StateInv.of_quiet (hm : Memory.wf s.unlisted s.mem)
    (hfault : s.faultCode = .none ∧ s.faultPc = 0 ∧ s.faultAddr = 0)
    (hstatus : s.halted = false ∧ s.waiting = false ∧ s.lastEvent = .none) : StateInv s := by
  obtain ⟨hcode, hreport⟩ := hfault
  obtain ⟨hrun, hwait, hevent⟩ := hstatus
  refine ⟨hm, fun _ => hreport, ?_, ?_, ?_, ?_, ?_, ?_, ?_, ?_⟩ <;> simp [hcode, hrun, hwait, hevent]

/-! ### Power-on -/

theorem Memory.wf_nil (d : Nat → Byte) : Memory.wf d [] := ⟨.nil, nofun⟩

/-- Settles O13: power-on lists no cell of memory and leaves a quiet core. -/
theorem powerOnMeetsTheInvariant : Obligations.PowerOnMeetsTheInvariant := fun _ =>
  .of_quiet (Memory.wf_nil _) ⟨rfl, rfl, rfl⟩ ⟨rfl, rfl, rfl⟩

/-! ### Steps -/

/-- The entry of a fault whose address fits its code: the first fault stays, and is one of those the invariant admits. -/
theorem StateInv.takeFault (h : StateInv s) (hfit : FaultAddrFits s.params.fontWriteProtect c a) :
    StateInv (s.takeFault c p a) := by
  refine .of_recordedFault h.memory ?_ (fun hstop => by simp [show s.params.continueAfterFault = false from hstop]) rfl rfl
  by_cases hc : s.faultCode = .none
  · simpa [hc] using hfit
  · simpa [hc] using h.faultAddrFits hc

theorem StateInv.fetched (h : StateInv s) (w : Word) : StateInv (s.fetched w) :=
  h.of_keepsStatus (keepsFaults_fetched s w) h.memory rfl rfl

theorem StateInv.refuse (h : StateInv s) (hhalt : s.halted = true) : StateInv s.refuse := by
  refine h.of_keepsFaults ⟨rfl, rfl, rfl, rfl, rfl⟩ h.memory nofun (fun _ => hhalt) fun hw => ?_
  obtain ⟨hrun, -⟩ := h.waitingRuns hw
  simp [hhalt] at hrun

/-- A decode error leaves WAITING standing only where the parameter says so. -/
theorem StateInv.completeUnrecognized (h : StateInv s) (hrun : s.halted = false) : StateInv s.completeUnrecognized := by
  refine h.of_keepsFaults ⟨rfl, rfl, rfl, rfl, rfl⟩ h.memory nofun nofun fun hw => ?_
  exact ⟨hrun, .inr ⟨(Bool.and_eq_true_iff.1 hw).1, rfl⟩⟩

/-- An execute phase that raises no fault reports none. -/
theorem StateInv.of_execEffect (h : StateInv s) (hrun : s.halted = false) (he : ExecEffect i s t) : StateInv t :=
  h.of_keepsFaults he.keepsFaults (he.memoryForm h.memory) (fun e => nomatch he.event.symm.trans e)
    (fun e => nomatch he.event.symm.trans e) fun _ => ⟨hrun, .inl he.event⟩

theorem StateInv.step (h : StateInv s) (hstep : step s = .next t) : StateInv t := by
  cases step_cases hstep with
  | refused hhalt e => exact e ▸ h.refuse hhalt
  | fetchFault _ _ e =>
    have hfit : 4096 ≤ (outOfRangeAddr s.pc.toNat).toNat := outOfRangeAddr_toNat s.pc.isLt ▸ Nat.le_max_right _ _
    exact e ▸ h.takeFault hfit
  | unrecognized hrun _ _ e => exact e ▸ (h.fetched _).completeUnrecognized hrun
  | execFault _ c a _ _ _ hfault e => exact e ▸ (h.fetched _).takeFault (faultAddrFits_of_faultOf hfault)
  | effect _ hrun _ _ _ he => exact (h.fetched _).of_execEffect hrun he

/-- Settles O14: every branch of the step keeps the invariant. -/
theorem stepKeepsTheInvariant : Obligations.StepKeepsTheInvariant := fun _ _ => StateInv.step

/-! ### Host actions -/

/-- LOAD writes only an image that fits the program region. -/
theorem wf_load (h : Memory.wf s.unlisted s.mem) (bytes : List Byte) :
    Memory.wf (s.load bytes).unlisted (s.load bytes).mem := by
  by_cases hfits : loadAccepted bytes = true
  · rw [State.load, if_pos hfits]
    have hlength := of_decide_eq_true hfits
    exact Memory.wf_writeList h (by simp only [loadBase, memSize] at hlength ⊢; omega)
  · rwa [State.load, if_neg hfits]

theorem StateInv.load (h : StateInv s) (bytes : List Byte) : StateInv (s.load bytes) := by
  refine h.of_keepsStatus (keepsFaults_load s bytes) (wf_load h.memory bytes) ?_ ?_ <;>
  · unfold State.load
    split <;> rfl

/-- A soft reset keeps some of the cells. -/
theorem wf_memKept (h : Memory.wf s.unlisted s.mem) : Memory.wf s.unlisted s.memKept :=
  ⟨h.1.filter _, fun c hc => h.2 c (List.mem_of_mem_filter hc)⟩

/-- Settles O15: a frame is made of steps; TICK, SET_KEY and LOAD keep the faults and the status; a reset leaves a quiet
core. -/
theorem hostActionsKeepTheInvariant : Obligations.HostActionsKeepTheInvariant := by
  intro a s t h hact
  cases a with
  | step => exact h.step hact
  | frame =>
    have hstart : StateInv s.frameStart := h.of_keepsStatus ⟨rfl, rfl, rfl, rfl, rfl⟩ h.memory rfl rfl
    exact stepTimes_keeps StateInv.step hstart hact
  | setKey k =>
    cases hact
    exact h.of_keepsStatus ⟨rfl, rfl, rfl, rfl, rfl⟩ h.memory rfl rfl
  | tick =>
    cases hact
    exact h.of_keepsStatus ⟨rfl, rfl, rfl, rfl, rfl⟩ h.memory rfl rfl
  | load bytes =>
    cases hact
    exact h.load bytes
  | powerOnReset =>
    cases hact
    exact .of_quiet (Memory.wf_nil _) ⟨rfl, rfl, rfl⟩ ⟨rfl, rfl, rfl⟩
  | softReset =>
    cases hact
    exact .of_quiet (wf_memKept h.memory) ⟨rfl, rfl, rfl⟩ ⟨rfl, rfl, rfl⟩

end Sys2Proof.Machine

/-! ### Loads and stores (42_index_and_memory.md R175 to R177; 20_memory.md R64, R69)

The two stores check, write and fail alike, so each clause is said once for any bytes; what an instruction adds is the bytes it
writes. -/

namespace Sys2Proof.Machine

variable {s : State} {i : Instr} {n : Nat}

/-! ### The check of a store -/

theorem State.writeCheck_none (hfit : s.i.toNat + n ≤ 4096) (hfont : s.params.fontWriteProtect = true → 80 ≤ s.i.toNat) :
    s.writeCheck n = none := writeFault_none.2 (.inr ⟨hfit, hfont⟩)

/-- A store past the end reports `max(I, 4096)`. -/
theorem exec_store_past (hfault : faultOf s i = (s.writeCheck n).map fun a => (.writeOutOfRange, a)) (hn : n ≠ 0)
    (hpast : 4096 < s.i.toNat + n) :
    ∃ t, exec i s = .next t ∧ FaultRecorded .writeOutOfRange (s.pc - 2).toNat (max s.i.toNat 4096) s t := by
  rw [State.writeCheck, writeFault_of_past hn hpast] at hfault
  exact outOfRangeAddr_toNat s.i.isLt ▸ exec_records hfault

/-- A store into the protected font reports I. -/
theorem exec_store_font (hfault : faultOf s i = (s.writeCheck n).map fun a => (.writeOutOfRange, a)) (hn : n ≠ 0)
    (hprotect : s.params.fontWriteProtect = true) (hfont : s.i.toNat < 80) (hfit : s.i.toNat + n ≤ 4096) :
    ∃ t, exec i s = .next t ∧ FaultRecorded .writeOutOfRange (s.pc - 2).toNat s.i.toNat s t := by
  rw [State.writeCheck, hprotect, writeFault_of_font hn hfit hfont, BitVec.ofNat_toNat, BitVec.setWidth_eq] at hfault
  exact exec_records hfault

/-! ### The effect of a store -/

/-- A store in range completes with its bytes from I on, and changes nothing else but the closing status. -/
theorem exec_store {bs : List Byte} (hexec : exec i s = .next (s.writeBytes s.i.toNat bs).complete)
    (hm : Memory.wf s.unlisted s.mem) (hfit : s.i.toNat + bs.length ≤ 4096) :
    ∃ t, exec i s = .next t ∧ Completed t ∧ (∀ k (hk : k < bs.length), t.readByte (s.i.toNat + k) = bs[k]) ∧
      UnchangedBut (fun p => p.closing ∨ p.inRange s.i.toNat bs.length) s t :=
  ⟨_, hexec, ⟨rfl, rfl⟩, fun _ => Memory.read_writeList_inside hm hfit, (unchanged_writeBytes s _ bs hm hfit).complete⟩

theorem exec_ldBVx {x : Reg} (h : s.writeCheck 3 = none) :
    exec (.ldBVx x) s = .next (s.writeBytes s.i.toNat (bcdDigits (s.reg x))).complete := by
  simp only [exec, execLdBVx, h]

theorem exec_ldMemVx {x : Reg} (h : s.writeCheck (x.val + 1) = none) :
    exec (.ldMemVx x) s = .next (s.writeBytes s.i.toNat (s.regBytes x)).complete := by
  simp only [exec, execLdMemVx, h]

/-- Settles O44: the clauses of a store, with the three digits of V[X]. -/
theorem storeDecimalDigitsOrFault : Obligations.StoreDecimalDigitsOrFault := by
  refine fun x s hm => ⟨fun hfit hfont => ?_, fun hpast =>
    exec_store_past (n := 3) rfl (by decide) (Nat.succ_lt_succ hpast), fun hprotect hfont =>
    exec_store_font (n := 3) rfl (by decide) hprotect hfont (by omega)⟩
  obtain ⟨t, hexec, hdone, hbytes, hframe⟩ := exec_store (exec_ldBVx (State.writeCheck_none (by omega) hfont)) hm
    (show s.i.toNat + 3 ≤ 4096 by omega)
  have hreg := (s.reg x).isLt
  have hdigit {n : Nat} (hn : n < 256) : (BitVec.ofNat 8 n).toNat = n := Nat.mod_eq_of_lt hn
  refine ⟨t, hexec, hdone, ?_, ?_, ?_, hframe⟩
  · exact hbytes 0 (show 0 < 3 by decide) ▸ hdigit (by omega)
  · exact hbytes 1 (show 1 < 3 by decide) ▸ hdigit (by omega)
  · exact hbytes 2 (show 2 < 3 by decide) ▸ hdigit (by omega)

/-- Settles O45: the clauses of a store, with the bytes of V[0] to V[X]. -/
theorem storeRegistersOrFault : Obligations.StoreRegistersOrFault := by
  refine fun x s hm => ⟨fun hfit hfont => ?_, fun hpast =>
    exec_store_past (n := x.val + 1) rfl (Nat.succ_ne_zero _) (Nat.succ_lt_succ hpast), fun hprotect hfont =>
    exec_store_font (n := x.val + 1) rfl (Nat.succ_ne_zero _) hprotect hfont (by omega)⟩
  obtain ⟨t, hexec, hdone, hbytes, hframe⟩ := exec_store (exec_ldMemVx (x := x) (State.writeCheck_none (by omega) hfont)) hm
    (by rw [State.length_regBytes]; omega)
  rw [State.length_regBytes] at hframe
  refine ⟨t, hexec, hdone, fun k hk => ?_, hframe⟩
  have hlt : k.val < (s.regBytes x).length := by
    rw [State.length_regBytes]
    exact Nat.lt_succ_of_le hk
  rw [hbytes k.val hlt, State.getElem_regBytes]

/-! ### The load -/

/-- FX65's loop puts the byte at `a + k` into V[k], for each `k` up to `x`. -/
theorem State.reg_loadRegs_readBytes (s : State) (a : Nat) {x k : Reg} (hk : k ≤ x) :
    (s.loadRegs 0 (s.readBytes a (x.val + 1))).reg k = s.readByte (a + k.val) := by
  have hk : k.val < (s.readBytes a (x.val + 1)).length := by
    rw [State.length_readBytes]
    exact Nat.lt_succ_of_le hk
  rw [State.reg_loadRegs _ _ _ (by rw [State.length_readBytes]; omega), if_pos (Nat.zero_le _), Nat.sub_zero,
    List.getElem?_eq_getElem hk, Option.getD_some, State.getElem_readBytes]

/-- It writes no register past `x`, and nothing else. -/
theorem unchanged_loadRegs (s : State) (x : Reg) {bs : List Byte} (hlength : bs.length = x.val + 1) :
    UnchangedBut (fun p => ∃ k : Reg, k ≤ x ∧ p = .reg k) s (s.loadRegs 0 bs) := by
  rw [State.loadRegs_eq]
  refine unchanged_regs _ fun j hj => ?_
  have hpast : bs.length ≤ j.val - 0 := by
    have : x.val < j.val := Nat.lt_of_not_le hj
    omega
  have hreg := s.reg_loadRegs 0 bs (by omega) j
  rwa [List.getElem?_eq_none hpast, Option.getD_none, ite_self] at hreg

theorem exec_ldVxMem {x : Reg} (h : s.readCheck (x.val + 1) = none) :
    exec (.ldVxMem x) s = .next (s.loadRegs 0 (s.readBytes s.i.toNat (x.val + 1))).complete := by
  simp only [exec, execLdVxMem, h]

/-- A read past the end, by an instruction that checks one, reports `max(I, 4096)`. -/
theorem exec_read_past (hfault : faultOf s i = (s.readCheck n).map fun a => (.readOutOfRange, a)) (hn : n ≠ 0)
    (hpast : 4096 < s.i.toNat + n) :
    ∃ t, exec i s = .next t ∧ FaultRecorded .readOutOfRange (s.pc - 2).toNat (max s.i.toNat 4096) s t := by
  rw [State.readCheck, boundsFault_of_past hn hpast] at hfault
  exact outOfRangeAddr_toNat s.i.isLt ▸ exec_records hfault

/-- Settles O46: the loop of FX65, or its failed check. -/
theorem loadRegistersOrFault : Obligations.LoadRegistersOrFault := by
  refine fun x s => ⟨fun hfit => ?_, fun hpast =>
    exec_read_past (n := x.val + 1) rfl (Nat.succ_ne_zero _) (Nat.succ_lt_succ hpast)⟩
  have hcheck : s.readCheck (x.val + 1) = none := boundsFault_none.2 (.inr (by omega))
  exact ⟨_, exec_ldVxMem hcheck, ⟨rfl, rfl⟩, fun k hk => s.reg_loadRegs_readBytes _ hk,
    (unchanged_loadRegs s x (State.length_readBytes _ _ _)).complete⟩

/-- Settles O47: the store keeps I and leaves the registers in the bytes that the load reads. -/
theorem loadAfterStoreRestoresRegisters : Obligations.LoadAfterStoreRestoresRegisters := by
  intro x s v a hm hfit hfont
  obtain ⟨t, ht, -, hstored, hframe⟩ := (storeRegistersOrFault x s hm).1 hfit hfont
  have hi : t.i = s.i := hframe .i (by simp [Piece.closing, Piece.inRange])
  obtain ⟨u, hu, -, hloaded, hframe'⟩ := (loadRegistersOrFault x { t with v := v, pc := a }).1 (hi ▸ hfit)
  have hi' : u.i = t.i := hframe' .i (by simp [Piece.closing])
  refine ⟨t, u, ht, hu, hi'.trans hi, fun k hk => ?_⟩
  calc u.reg k = t.readByte (t.i.toNat + k.val) := hloaded k hk
    _ = t.readByte (s.i.toNat + k.val) := by rw [hi]
    _ = s.reg k := hstored k hk

end Sys2Proof.Machine

/-! ### The remaining register operations (41_alu.md R141, R154; 42_index_and_memory.md R172; 43_timers_and_input.md)

These are of the shapes proved above: one `setReg`, the two writes of `writeFlagged`, one `setI`, or a skip. -/

namespace Sys2Proof.Machine

/-- Settles O33: the results of 8XY4, 8XY5 and 8XY7 on VF, with the flag written first. -/
theorem flagWrittenFirstLeavesTheResultInVf : Obligations.FlagWrittenFirstLeavesTheResultInVf := fun y =>
  ⟨leavesResultInVf_of_writeFlagged (fun s => addResult (s.reg 15) (s.reg y)) (fun s => addFlag (s.reg 15) (s.reg y))
      (fun _ => rfl) fun _ => addResult_toNat _ _,
    leavesResultInVf_of_writeFlagged (fun s => subResult (s.reg 15) (s.reg y)) (fun s => subFlag (s.reg 15) (s.reg y))
      (fun _ => rfl) fun _ => subResult_toNat _ _,
    leavesResultInVf_of_writeFlagged (fun s => subResult (s.reg y) (s.reg 15)) (fun s => subnFlag (s.reg 15) (s.reg y))
      (fun _ => rfl) fun _ => subResult_toNat _ _⟩

/-- CXNN leaves the masked byte in V[X]. -/
theorem reg_of_exec_rnd {x : Reg} {nn : Byte} {s t : State} (h : exec (.rnd x nn) s = .next t) :
    t.reg x = s.rndByte &&& nn := by
  cases h
  rw [State.reg_complete, State.reg_setReg, if_pos rfl]

/-- Settles O34: masking once more, or with 0, says what is known of the byte. -/
theorem randomByteIsMasked : Obligations.RandomByteIsMasked := by
  refine fun x nn => ⟨writesReg_of_setReg (fun s => s.rndByte &&& nn) (fun _ => rfl) fun _ => BitVec.toNat_and _ _,
    fun s t h => ?_⟩
  rw [reg_of_exec_rnd h]
  refine ⟨by rw [BitVec.and_assoc, BitVec.and_self], ?_⟩
  rintro rfl
  exact BitVec.and_zero

/-- Settles O43: FX1E writes I with the wrapped sum. -/
theorem addToIndexWraps : Obligations.AddToIndexWraps := fun x =>
  writesI_of_setI (fun s => s.i + zextByte (s.reg x)) (fun _ => rfl) fun s => by
    rw [BitVec.toNat_add, zextByte, BitVec.toNat_setWidth_of_le (by decide)]

/-- Settles O48: FX07 writes V[X], FX15 and FX18 a timer each. -/
theorem timerTransfers : Obligations.TimerTransfers := fun x =>
  ⟨writesReg_of_setReg (fun s => s.dt) (fun _ => rfl) fun _ => rfl,
    fun s => ⟨_, rfl, ⟨rfl, rfl⟩, rfl, (unchanged_setDt s (s.reg x)).complete⟩,
    fun s => ⟨_, rfl, ⟨rfl, rfl⟩, rfl, (unchanged_setSt s (s.reg x)).complete⟩⟩

/-! ### Keys (R191, R192, R194, R195) -/

/-- The key as a byte keeps its value. -/
theorem keyByte_toNat (k : BitVec 4) : (keyByte k).toNat = k.toNat := BitVec.toNat_setWidth_of_le (by decide)

theorem State.keyIs_iff (s : State) (b : Byte) : s.keyIs b = true ↔ s.key.map BitVec.toNat = some b.toNat := by
  unfold State.keyIs
  cases s.key with
  | none => simp
  | some k => simp [← BitVec.toNat_inj, keyByte_toNat]

/-- Settles O49: EX9E and EXA1 are skips, on the key and on its negation. -/
theorem keySkipsCompareTheKey : Obligations.KeySkipsCompareTheKey := fun x =>
  ⟨writesPc_of_skipIf (fun s => s.keyIs (s.reg x)) (fun _ => rfl) fun s => s.keyIs_iff _,
    writesPc_of_skipIf (fun s => !s.keyIs (s.reg x)) (fun _ => rfl) fun s => by
      rw [Bool.not_eq_true', ← Bool.not_eq_true, s.keyIs_iff]⟩

theorem exec_ldVxK_of_no_key {x : Reg} {s : State} (h : s.key = none) :
    exec (.ldVxK x) s = .next (s.selectPc .rewind).completeWaiting := by
  simp only [exec, execLdVxK, h]

theorem exec_ldVxK_of_key {x : Reg} {s : State} {k : BitVec 4} (h : s.key = some k) :
    exec (.ldVxK x) s = .next (s.storeKey x k).complete := by
  simp only [exec, execLdVxK, h]

/-- Settles O50: with a key FX0A closes the step after the store, which the parameter gives or not. -/
theorem keyWaitCompletesWithAKey : Obligations.KeyWaitCompletesWithAKey := by
  intro x s k hkey
  refine ⟨_, exec_ldVxK_of_key hkey, ⟨rfl, rfl⟩, fun hstore => ?_, fun hstore => ?_⟩
  · rw [State.storeKey, if_pos hstore]
    refine ⟨?_, (unchanged_setReg s x _).complete⟩
    rw [State.reg_complete, State.reg_setReg, if_pos rfl, keyByte_toNat]
  · rw [State.storeKey, hstore]
    exact unchanged_complete s

/-! ### The wait (R194, R195, R44) -/

/-- The state after `n` steps of a wait: LAST_OP has the word of the FX0A, the wait is reported, and `n` draws are counted. -/
def State.waited (s : State) (n : Nat) : State :=
  { s with lastOp := s.fetchWord, waiting := true, lastEvent := .none, rndIndex := s.rndIndex + n }

theorem unchanged_waited (s : State) (n : Nat) :
    UnchangedBut (fun p => p.closing ∨ p = .lastOp ∨ p = .rndIndex) s (s.waited n) := by
  intro p hp
  cases p with
  | lastOp | waiting | lastEvent | rndIndex => simp [Piece.closing] at hp
  | _ => rfl

/-- A wait fetches the same FX0A each time. -/
theorem State.fetchInstr_waited (s : State) (n : Nat) : (s.waited n).fetchInstr = s.fetchInstr :=
  State.fetchInstr_of_same rfl rfl rfl

section
variable {s : State} {x : Reg} (hrun : s.halted = false) (hpc : s.pc.toNat ≤ 4094)
  (hi : s.fetchInstr = some (.ldVxK x)) (hkey : s.key = none)
include hrun hpc hi hkey

theorem step_waited (n : Nat) : step (s.waited n) = .next (s.waited (n + 1)) :=
  step_of_waiting_key (s := s.waited n) hrun hpc ((s.fetchInstr_waited n).trans hi) hkey

theorem stepTimes_waited (k n : Nat) : stepTimes n (s.waited k) = .next (s.waited (k + n)) := by
  induction n generalizing k with
  | zero => rfl
  | succ n ih => rw [stepTimes_succ (step_waited hrun hpc hi hkey k), ih, Nat.succ_add_eq_add_succ]

theorem stepTimes_of_waiting_key (n : Nat) : stepTimes (n + 1) s = .next (s.waited (n + 1)) := by
  have hfirst : step s = .next (s.waited 1) := step_of_waiting_key hrun hpc hi hkey
  rw [stepTimes_succ hfirst, stepTimes_waited hrun hpc hi hkey, Nat.add_comm]

end

/-- A step at an FX0A with a key pressed goes on to the next address and waits no more. -/
theorem step_of_pressed_key {s : State} {x : Reg} {k : BitVec 4} (hrun : s.halted = false) (hpc : s.pc.toNat ≤ 4094)
    (hi : s.fetchInstr = some (.ldVxK x)) (hkey : s.key = some k) :
    ∃ u, step s = .next u ∧ u.pc.toNat = s.pc.toNat + 2 ∧ u.waiting = false := by
  refine ⟨_, (step_of_instr hrun hpc hi).trans (exec_ldVxK_of_key hkey), ?_, rfl⟩
  have hstore : ((s.fetched s.fetchWord).storeKey x k).pc = s.pc + 2 := by
    unfold State.storeKey
    split <;> rfl
  rw [State.complete_pc, hstore, State.toNat_pc_add_two hpc]

/-- Settles O51: the steps of the wait differ in their count of draws alone, and a key ends it. -/
theorem keyWaitHoldsUntilAKey : Obligations.KeyWaitHoldsUntilAKey := by
  intro x s k n hrun hpc hi hkey
  have hinstr : ((s.waited (n + 1)).setKey (some k)).fetchInstr = some (.ldVxK x) :=
    (State.fetchInstr_of_same rfl rfl rfl).trans hi
  exact ⟨_, stepTimes_of_waiting_key hrun hpc hi hkey n, rfl, rfl, rfl, rfl, unchanged_waited s _,
    step_of_pressed_key hrun hpc hinstr rfl⟩

end Sys2Proof.Machine

/-! ### Drawing (44_display.md R213 to R219)

The sprite engine flips the covered pixels and tells of a collision (`drawSprite_covered`, `drawSprite_other`,
`drawSprite_collision`); DXYN adds the check, VF and DRAW. -/

namespace Sys2Proof.Machine

/-- Settles O54: a covered pixel is flipped twice, so it is set before the second run where it was clear before the first. -/
theorem drawingTwiceRestoresTheDisplay : Obligations.DrawingTwiceRestoresTheDisplay := by
  refine fun fb x0 y0 rows => ⟨Framebuffer.ext_pixel fun x y => ?_, ?_⟩
  · by_cases hcover : Covers x0 y0 rows x y
    · rw [drawSprite_covered hcover, drawSprite_covered hcover, Bool.not_not]
    · rw [drawSprite_other hcover, drawSprite_other hcover]
  · rw [drawSprite_collision]
    refine exists₂_congr fun x y => and_congr_right fun hcover => ?_
    rw [drawSprite_covered hcover, Bool.not_eq_true']

/-- With its rows in range, or none, DXYN draws the sprite, sets VF to the collision and DRAW. -/
theorem exec_drw {x y : Reg} {n : BitVec 4} {s : State} (h : s.readCheck n.toNat = none) :
    exec (.drw x y n) s =
      .next ((s.redraw (s.drawn x y n).2).setReg regF (flagByte (s.drawn x y n).1)).complete := by
  simp only [exec, execDrw, h]

/-- DXYN changes the covered pixels, VF and DRAW alone. -/
theorem unchanged_drw {s : State} {x y : Reg} {n : BitVec 4} {covered : Fin 64 → Fin 32 → Prop}
    (hcovered : covered = Covers (spriteX (s.reg x)) (spriteY (s.reg y)) (s.readBytes s.i.toNat n.toNat)) (b : Byte) :
    UnchangedBut (fun p => p = .draw ∨ p = .reg 15 ∨ ∃ px py, covered px py ∧ p = .pixel px py) s
      ((s.redraw (s.drawn x y n).2).setReg regF b) := by
  have hdraw : UnchangedBut (fun p => p = .draw ∨ ∃ px py, p = .pixel px py ∧ covered px py) s
      (s.redraw (s.drawn x y n).2) := by
    subst hcovered
    exact unchanged_redraw s _ _ fun px py hp => drawSprite_other hp
  refine (hdraw.mono fun p hp => ?_).trans ((unchanged_setReg _ regF b).mono fun p hp => .inr (.inl hp))
  exact hp.imp_right fun ⟨px, py, hp, hc⟩ => .inr ⟨px, py, hc, hp⟩

/-- Settles O53: the engine's facts for the rows at I, or the failed read check. -/
theorem drawFlipsTheCoveredPixels : Obligations.DrawFlipsTheCoveredPixels := by
  refine fun x y n s => ⟨fun hfit => ?_, fun hn hpast => ?_⟩
  · have hcheck : s.readCheck n.toNat = none := boundsFault_none.2 (hfit.imp_left (congrArg BitVec.toNat))
    have hvf : ((s.redraw (s.drawn x y n).2).setReg regF (flagByte (s.drawn x y n).1)).complete.reg 15 =
        flagByte (s.drawn x y n).1 := by
      rw [State.reg_complete, State.reg_setReg, if_pos rfl]
    refine ⟨_, _, rfl, exec_drw hcheck, ⟨rfl, rfl⟩, rfl, fun px py => drawSprite_covered, fun hhit => ?_, fun hmiss => ?_,
      (unchanged_drw rfl _).complete⟩
    · have hcollision : (s.drawn x y n).1 = true := drawSprite_collision.2 hhit
      rw [hvf, hcollision]
      rfl
    · have hcollision : (s.drawn x y n).1 = false := Bool.eq_false_iff.2 fun h => hmiss (drawSprite_collision.1 h)
      rw [hvf, hcollision]
      rfl
  · exact exec_read_past (n := n.toNat) rfl (fun e => hn (BitVec.eq_of_toNat_eq e)) hpast

end Sys2Proof.Machine

/-! ### Resets and LOAD (70_reset_and_hazards.md R260, R261, R264; 10_state.md R48) -/

namespace Sys2Proof.Machine

/-- The power-on state has the values of R48, for any parameters and wherever the count of draws stands. -/
theorem powerOnValues_powerOn (p : Params) (n : Nat) : PowerOnValues { State.powerOn p with rndIndex := n } where
  font _ h := dif_pos h
  rest _ h := dif_neg (Nat.not_lt_of_le h)
  regs k := Vector.getElem_replicate k.isLt
  pc := rfl
  i := rfl
  stack k := Vector.getElem_replicate k.isLt
  sp := rfl
  timers := ⟨rfl, rfl⟩
  display := Framebuffer.pixel_clear
  key := rfl
  lastOp := rfl
  status := ⟨rfl, rfl, rfl, rfl⟩
  faults := ⟨rfl, rfl, rfl⟩

/-- Settles O55: `State.reset` and every power-on reset leave a power-on state. -/
theorem powerOnLeavesTheSpecValues : Obligations.PowerOnLeavesTheSpecValues :=
  ⟨powerOnValues_powerOn defaultParams 0, fun s => ⟨_, rfl, powerOnValues_powerOn s.params s.rndIndex, rfl⟩⟩

/-- Below a bound, the cells below it give the reads. -/
theorem Memory.read_filter_of_lt {d : Nat → Byte} {b a : Nat} (m : Memory) (h : a < b) :
    Memory.read d (m.filter fun c => decide (c.1 < b)) a = Memory.read d m a := by
  induction m with
  | nil => rfl
  | cons c m ih =>
    by_cases hc : c.1 < b
    · rw [List.filter_cons_of_pos (by simpa using hc)]
      simp only [Memory.read, ih]
    · rw [List.filter_cons_of_neg (by simpa using hc), ih, Memory.read_cons_other c (by omega)]

/-- From the bound on, the cells below it list nothing. -/
theorem Memory.read_filter_of_le {d : Nat → Byte} {b a : Nat} (m : Memory) (h : b ≤ a) :
    Memory.read d (m.filter fun c => decide (c.1 < b)) a = d a := by
  refine Memory.read_unlisted fun c hc => ?_
  have hlt : c.1 < b := of_decide_eq_true (List.mem_filter.1 hc).2
  omega

/-- Settles O56: the power-on values, but for KEY and the cells below 0x200; above the font nothing unlisted is set. -/
theorem softResetKeepsLowMemoryAndKey : Obligations.SoftResetKeepsLowMemoryAndKey := by
  intro s
  have hpower := powerOnValues_powerOn s.params s.rndIndex
  obtain ⟨hrun, hdraw, hwait, hevent⟩ := hpower.status
  obtain ⟨hcode, hpc, haddr⟩ := hpower.faults
  refine ⟨s.softReset, rfl, fun a ha => Memory.read_filter_of_lt s.mem ha, fun a ha => ?_, rfl, hpower.regs, rfl, rfl, rfl,
    hpower.stack, rfl, rfl, hpower.display, rfl, hrun, hdraw, hwait, hevent, hcode, hpc, haddr⟩
  exact (Memory.read_filter_of_le s.mem ha).trans (dif_neg (by omega))

/-- Settles O57: an accepted image is a write of bytes in range, and a rejected one does nothing. -/
theorem loadWritesTheProgramRegion : Obligations.LoadWritesTheProgramRegion := by
  refine fun bytes s hm => ⟨fun hfit => ?_, fun hlong => ?_⟩
  · have haccept : loadAccepted bytes = true := decide_eq_true hfit
    have hrange : loadBase + bytes.length ≤ memSize := Nat.add_le_add_left hfit 0x200
    have hload : s.load bytes = s.writeBytes loadBase bytes := if_pos haccept
    exact ⟨s.writeBytes loadBase bytes, congrArg _ hload, congrArg _ haccept,
      fun k hk => Memory.read_writeList_inside hm hrange hk, unchanged_writeBytes s loadBase bytes hm hrange⟩
  · have hreject : loadAccepted bytes = false := decide_eq_false (Nat.not_le_of_lt hlong)
    have hload : s.load bytes = s := by rw [State.load, hreject]; rfl
    exact ⟨congrArg _ hload, congrArg _ hreject⟩

end Sys2Proof.Machine

/-! ### Frames (70_reset_and_hazards.md R266, R268)

A frame is a row of step requests, each of which answers and reports one event. -/

namespace Sys2Proof.Machine

theorem stepTimes_answers (n : Nat) (s : State) : ∃ t, stepTimes n s = .next t := by
  induction n generalizing s with
  | zero => exact ⟨s, rfl⟩
  | succ n ih =>
    obtain ⟨u, hu⟩ := stepAlwaysAnswersANextState s
    exact stepTimes_succ hu n ▸ ih u

theorem length_stepEvents (n : Nat) (s : State) : (stepEvents n s).length = n := by
  induction n generalizing s with
  | zero => rfl
  | succ n ih =>
    obtain ⟨u, hu⟩ := stepAlwaysAnswersANextState s
    rw [stepEvents_succ hu, List.length_cons, ih]

/-! ### On a halted core (R110) -/

section
variable {s : State} (hhalt : s.halted = true)
include hhalt

/-- A halted core refuses a row of requests as it refuses one. -/
theorem stepTimes_of_halted (n : Nat) : stepTimes (n + 1) s = .next s.refuse := by
  induction n generalizing s with
  | zero => exact stepTimes_succ (step_of_halted hhalt) 0
  | succ n ih => exact (stepTimes_succ (step_of_halted hhalt) _).trans (ih (s := s.refuse) hhalt)

theorem stepEvents_of_halted (n : Nat) : stepEvents n s = List.replicate n .refused := by
  induction n generalizing s with
  | zero => rfl
  | succ n ih => exact (stepEvents_succ (step_of_halted hhalt) n).trans (congrArg _ (ih (s := s.refuse) hhalt))

end

theorem unchanged_frameStart (s : State) : UnchangedBut (· = .draw) s s.frameStart := by
  intro p hp
  cases p with
  | draw => exact absurd rfl hp
  | _ => rfl

/-- A refusal changes LAST_EVENT alone. -/
theorem unchanged_refuse_event (s : State) : UnchangedBut (· = .lastEvent) s s.refuse := by
  intro p hp
  cases p with
  | lastEvent => exact absurd rfl hp
  | _ => rfl

/-- Settles O58: a row of requests always answers; on a halted core each is refused. -/
theorem frameOfAHaltedCoreRefusesItsRequests : Obligations.FrameOfAHaltedCoreRefusesItsRequests := by
  refine fun s => ⟨?_, fun hhalt => ?_⟩
  · obtain ⟨t, ht⟩ := stepTimes_answers s.params.frameBudget s.frameStart
    refine ⟨t, ht, length_stepEvents _ _, fun hbudget => ?_⟩
    obtain ⟨n, hn⟩ := Nat.exists_eq_add_of_le' hbudget
    rw [hn] at ht
    rw [actEvents, hn]
    exact getLast?_stepEvents ht
  · have hstart := (unchanged_frameStart s).mono (c' := fun p => p = .draw ∨ p = .lastEvent) fun _ => .inl
    have hevents := stepEvents_of_halted (s := s.frameStart) hhalt s.params.frameBudget
    cases hbudget : s.params.frameBudget with
    | zero =>
      refine ⟨s.frameStart, by rw [act, frame, hbudget]; rfl, rfl, hbudget ▸ hevents, nofun, hstart⟩
    | succ n =>
      refine ⟨s.frameStart.refuse, ?_, rfl, hbudget ▸ hevents, fun _ => rfl,
        hstart.trans ((unchanged_refuse_event _).mono fun _ => .inr)⟩
      rw [act, frame, hbudget]
      exact stepTimes_of_halted (s := s.frameStart) hhalt n

/-! ### Over zeros (R95, R268) -/

/-- The word 0000 is a hole of family 0. -/
theorem decode_zero (strict : Bool) : decode strict 0 = none := by
  cases strict <;> rfl

/-- Two zero bytes at PC are the word 0000, which is UNRECOGNIZED. -/
theorem State.fetchInstr_of_zeros {s : State} (hhigh : s.readByte s.pc.toNat = 0) (hlow : s.readByte (s.pc.toNat + 1) = 0) :
    s.fetchInstr = none := by
  rw [State.fetchInstr, State.fetchWord, hhigh, hlow]
  exact decode_zero _

/-- A row of requests over zeros: each is a decode error that advances PC by 2. -/
theorem stepTimes_over_zeros (n : Nat) {s : State} (hrun : s.halted = false) (hfit : s.pc.toNat + 2 * n ≤ 4096)
    (hzero : ∀ a, s.pc.toNat ≤ a → a < s.pc.toNat + 2 * n → s.readByte a = 0) :
    ∃ t, stepTimes n s = .next t ∧ stepEvents n s = List.replicate n .decodeError ∧
      t.pc.toNat = s.pc.toNat + 2 * n ∧ t.draw = s.draw ∧
      UnchangedBut (fun p => p.closing ∨ p = .pc ∨ p = .lastOp ∨ p = .rndIndex) s t := by
  induction n generalizing s with
  | zero => exact ⟨s, rfl, rfl, rfl, rfl, .refl _ s⟩
  | succ n ih =>
    have hnone : s.fetchInstr = none :=
      State.fetchInstr_of_zeros (hzero _ le_rfl (by omega)) (hzero _ (Nat.le_succ _) (by omega))
    have hstep := step_of_unrecognized hrun (by omega) hnone
    have hpc : (s.fetched s.fetchWord).completeUnrecognized.pc.toNat = s.pc.toNat + 2 := State.toNat_pc_add_two (by omega)
    have hframe : UnchangedBut (fun p => p.closing ∨ p = .pc ∨ p = .lastOp ∨ p = .rndIndex) s
        (s.fetched s.fetchWord).completeUnrecognized :=
      ((unchanged_fetched s _).mono fun _ => .inr).trans ((unchanged_completeUnrecognized _).mono fun _ => .inl)
    obtain ⟨t, ht, hevents, hend, hdraw, hrest⟩ := ih (s := (s.fetched s.fetchWord).completeUnrecognized) hrun
      (by omega) fun a hlow hhigh => hzero a (by omega) (by omega)
    refine ⟨t, (stepTimes_succ hstep n).trans ht, ?_, by omega, hdraw, hframe.trans hrest⟩
    rw [stepEvents_succ hstep, hevents]
    rfl

/-- Settles O59: a frame clears DRAW and is a row of requests over zeros. -/
theorem frameOverZerosOnlyAdvancesPc : Obligations.FrameOverZerosOnlyAdvancesPc := by
  intro s hrun hfit hzero
  obtain ⟨t, ht, hevents, hend, hdraw, hframe⟩ := stepTimes_over_zeros s.params.frameBudget (s := s.frameStart) hrun
    hfit hzero
  refine ⟨t, ht, congrArg _ hdraw, hevents, hend, ?_⟩
  exact ((unchanged_frameStart s).mono fun p hp => .inr (.inr (.inr (.inl hp)))).trans
    (hframe.mono fun p hp => hp.imp_right (.imp_right (.imp_right .inr)))

/-! ### The STATUS byte (10_state.md R46) -/

theorem toNat_append_eq_add {m n : Nat} (a : BitVec m) (b : BitVec n) : (a ++ b).toNat = a.toNat * 2 ^ n + b.toNat := by
  rw [BitVec.toNat_append, ← Nat.shiftLeft_add_eq_or_of_lt b.isLt, Nat.shiftLeft_eq]

/-- Settles O60: each append shifts what stands before it by the width of the field. -/
theorem statusByteHasItsLayout : Obligations.StatusByteHasItsLayout := by
  refine ⟨fun s => ?_, by decide, by decide⟩
  simp only [State.statusWord, toNat_append_eq_add, BitVec.toNat_zero, BitVec.toNat_ofBool, Bool.toNat,
    Bool.cond_eq_ite]
  split_ifs <;> omega

end Sys2Proof.Machine

/-! ### The diagnostic registers do not feed back (10_state.md R37, R42 to R44, R50)

`State.program` blanks the diagnostic pieces. Two states a program cannot tell apart are equal once blanked, and a step, and
the execute phase in it, leave states that agree once blanked, whatever the diagnostic pieces were. -/

namespace Sys2Proof.Machine

variable {s s' t : State}

/-- The state with its diagnostic pieces at their power-on values: what a program can see of it. -/
def State.program (s : State) : State :=
  { s with
    lastOp := 0, draw := false, waiting := false, lastEvent := .none, faultCode := .none, faultPc := 0, faultAddr := 0 }

/-- Blanking changes only diagnostic pieces. -/
theorem sameToPrograms_program (s : State) : SameToPrograms s s.program := by
  intro p hp
  cases p with
  | lastOp | draw | waiting | lastEvent | faultCode | faultPc | faultAddr => simp [Piece.diagnostic, Piece.closing] at hp
  | _ => rfl

theorem sameToPrograms_of_program_eq (h : s.program = s'.program) : SameToPrograms s s' := by
  have hback : SameToPrograms s.program s' := fun p hp => Piece.same_symm (h ▸ sameToPrograms_program s' p hp)
  exact (sameToPrograms_program s).trans hback

theorem SameToPrograms.same (h : SameToPrograms s s') (p : Piece)
    (hp : ¬p.diagnostic := by simp [Piece.diagnostic, Piece.closing]) : p.same s s' := h p hp

/-- In canonical memory, states that read alike but for the diagnostic pieces are equal once blanked. -/
theorem program_eq_of_sameToPrograms (hm : Memory.wf s.unlisted s.mem) (hm' : Memory.wf s'.unlisted s'.mem)
    (h : SameToPrograms s s') : s'.program = s.program := by
  have hparams : s'.params = s.params := h.same .params
  have hunlisted : s'.unlisted = s.unlisted := by rw [State.unlisted, hparams, State.unlisted]
  have hmem : s'.mem = s.mem := by
    rw [hunlisted] at hm'
    refine Memory.eq_of_reads hm' hm fun a => ?_
    have hbyte : s'.readByte a = s.readByte a := h.same (.byte a)
    rwa [State.readByte, hunlisted] at hbyte
  have hv : s'.v = s.v := Vector.ext fun k hk => h.same (.reg ⟨k, hk⟩)
  have hpc : s'.pc = s.pc := h.same .pc
  have hi : s'.i = s.i := h.same .i
  have hstack : s'.stack = s.stack := Vector.ext fun k hk => h.same (.stack ⟨k, hk⟩)
  have hsp : s'.sp = s.sp := h.same .sp
  have hdt : s'.dt = s.dt := h.same .dt
  have hst : s'.st = s.st := h.same .st
  have hfb : s'.fb = s.fb := Framebuffer.ext_pixel fun x y => h.same (.pixel x y)
  have hkey : s'.key = s.key := h.same .key
  have hhalted : s'.halted = s.halted := h.same .halted
  have hrnd : s'.rndIndex = s.rndIndex := h.same .rndIndex
  simp only [State.program, hparams, hmem, hv, hpc, hi, hstack, hsp, hdt, hst, hfb, hkey, hhalted, hrnd]

/-! ### The execute phase -/

theorem program_writeFlagged (s : State) (x : Reg) (r : Byte) (f : Bool) :
    (s.writeFlagged x r f).program = (s.program.writeFlagged x r f).program := by
  by_cases h : s.params.flagWriteLast = true
  · rw [State.writeFlagged, if_pos h, State.writeFlagged, if_pos (show s.program.params.flagWriteLast = true from h)]
    rfl
  · rw [State.writeFlagged, if_neg h, State.writeFlagged, if_neg (show ¬s.program.params.flagWriteLast = true from h)]
    rfl

theorem program_storeKey (s : State) (x : Reg) (k : BitVec 4) :
    (s.storeKey x k).program = (s.program.storeKey x k).program := by
  by_cases h : s.params.fx0aStoresKey = true
  · rw [State.storeKey, if_pos h, State.storeKey, if_pos (show s.program.params.fx0aStoresKey = true from h)]
    rfl
  · rw [State.storeKey, if_neg h, State.storeKey, if_neg (show ¬s.program.params.fx0aStoresKey = true from h)]
    rfl

theorem program_loadRegs (s : State) (k : Nat) (bs : List Byte) :
    (s.loadRegs k bs).program = (s.program.loadRegs k bs).program := by
  induction bs generalizing s k with
  | nil => rfl
  | cons b bs ih => exact ih _ _

/-- The check of an instruction reads no diagnostic piece. -/
theorem faultOf_program (s : State) (i : Instr) : faultOf s.program i = faultOf s i := by
  cases i <;> rfl

theorem exec_program_of_no_fault {i : Instr} (h : faultOf s i = none) :
    ∃ t u, exec i s = .next t ∧ exec i s.program = .next u ∧ t.program = u.program := by
  cases i with
  | ret =>
    have hpos : 0 < s.sp.val := Nat.pos_of_ne_zero fun e => nomatch (faultOf_ret_of_empty e).symm.trans h
    exact ⟨_, _, exec_ret_of_pos hpos, exec_ret_of_pos (s := s.program) hpos, rfl⟩
  | call nnn =>
    have hlt : s.sp.val < 16 := lt_of_le_of_ne (Nat.le_of_lt_succ s.sp.isLt) fun e =>
      nomatch (faultOf_call_of_full nnn e).symm.trans h
    exact ⟨_, _, exec_call_of_lt nnn hlt, exec_call_of_lt (s := s.program) nnn hlt, rfl⟩
  | addVxVy | subVxVy | shrVxVy | subnVxVy | shlVxVy =>
    exact ⟨_, _, rfl, rfl, program_writeFlagged s _ _ _⟩
  | drw x y n =>
    have hcheck : s.readCheck n.toNat = none := Option.map_eq_none_iff.1 h
    exact ⟨_, _, exec_drw hcheck, exec_drw (s := s.program) hcheck, rfl⟩
  | ldVxK x =>
    cases hkey : s.key with
    | none => exact ⟨_, _, exec_ldVxK_of_no_key hkey, exec_ldVxK_of_no_key (s := s.program) hkey, rfl⟩
    | some k => exact ⟨_, _, exec_ldVxK_of_key hkey, exec_ldVxK_of_key (s := s.program) hkey, program_storeKey s x k⟩
  | ldBVx x =>
    have hcheck : s.writeCheck 3 = none := Option.map_eq_none_iff.1 h
    exact ⟨_, _, exec_ldBVx hcheck, exec_ldBVx (s := s.program) hcheck, rfl⟩
  | ldMemVx x =>
    have hcheck : s.writeCheck (x.val + 1) = none := Option.map_eq_none_iff.1 h
    exact ⟨_, _, exec_ldMemVx hcheck, exec_ldMemVx (s := s.program) hcheck, rfl⟩
  | ldVxMem x =>
    have hcheck : s.readCheck (x.val + 1) = none := Option.map_eq_none_iff.1 h
    exact ⟨_, _, exec_ldVxMem hcheck, exec_ldVxMem (s := s.program) hcheck, program_loadRegs s _ _⟩
  | _ => exact ⟨_, _, rfl, rfl, rfl⟩

/-- An execute phase answers states that agree once blanked, of a state and of the blanked one. -/
theorem exec_program (i : Instr) (s : State) :
    ∃ t u, exec i s = .next t ∧ exec i s.program = .next u ∧ t.program = u.program := by
  cases h : faultOf s i with
  | none => exact exec_program_of_no_fault h
  | some fault => exact ⟨_, _, exec_of_fault h, exec_of_fault ((faultOf_program s i).trans h), rfl⟩

/-- It answers such states of any two that agree once blanked. -/
theorem exec_of_program_eq (i : Instr) (h : s.program = s'.program) :
    ∃ t t', exec i s = .next t ∧ exec i s' = .next t' ∧ t.program = t'.program := by
  obtain ⟨t, u, ht, hu, htu⟩ := exec_program i s
  obtain ⟨t', u', ht', hu', htu'⟩ := exec_program i s'
  obtain rfl : u = u' := by
    rw [h, hu'] at hu
    exact (Host.Outcome.next.inj hu).symm
  exact ⟨t, t', ht, ht', htu.trans htu'.symm⟩

/-! ### The step -/

/-- A step answers states that agree once blanked, of a state and of the blanked one: HALTED, PC and the fetched word are no
diagnostic pieces. -/
theorem step_program (s : State) :
    ∃ t u, step s = .next t ∧ step s.program = .next u ∧ t.program = u.program := by
  by_cases hhalt : s.halted = true
  · exact ⟨_, _, step_of_halted hhalt, step_of_halted (s := s.program) hhalt, rfl⟩
  have hrun : s.halted = false := Bool.eq_false_iff.2 hhalt
  by_cases hpast : 4094 < s.pc.toNat
  · exact ⟨_, _, step_of_past hrun hpast, step_of_past (s := s.program) hrun hpast, rfl⟩
  have hpc : s.pc.toNat ≤ 4094 := Nat.le_of_not_lt hpast
  cases hi : s.fetchInstr with
  | none => exact ⟨_, _, step_of_unrecognized hrun hpc hi, step_of_unrecognized (s := s.program) hrun hpc hi, rfl⟩
  | some i =>
    rw [step_of_instr hrun hpc hi, step_of_instr (s := s.program) hrun hpc hi]
    exact exec_of_program_eq i rfl

/-- Settles O25: both states step as the one blanked state does. -/
theorem diagnosticsDoNotFeedBack : Obligations.DiagnosticsDoNotFeedBack := by
  intro s s' t hm hm' hsame hstep
  obtain ⟨t₀, u, ht, hu, htu⟩ := step_program s
  obtain ⟨t', u', ht', hu', htu'⟩ := step_program s'
  obtain rfl : t₀ = t := Host.Outcome.next.inj (ht.symm.trans hstep)
  obtain rfl : u' = u := by
    rw [program_eq_of_sameToPrograms hm hm' hsame, hu] at hu'
    exact (Host.Outcome.next.inj hu').symm
  exact ⟨t', ht', sameToPrograms_of_program_eq (htu.trans htu'.symm)⟩

end Sys2Proof.Machine
